-- ==== Sys2Proof/Word.lean ====
section
/-! DEFINITION. The widths the spec gives its values (R5, R7, R9): all values are unsigned, bit 0 is the least
significant. -/

namespace Sys2Proof

/-- A 16-bit value: ACC and a table entry (ACC_W = TBL_W = 16, R5). -/
abbrev Word := BitVec 16

/-- An 8-bit value: an input byte, an output byte, a table index, FIDX (BYTE_W = 8, R5). -/
abbrev Byte := BitVec 8

/-- A command word (CMD_W = 12, R7, R60). -/
abbrev CmdWord := BitVec 12

end Sys2Proof
end

