-- ==== Sys2Proof/Syntax.lean ====
section
/-! DEFINITION. The six commands of R63, the whole operation set of the engine. -/

namespace Sys2Proof

/-- One constructor per row of spec/opcode_table.json. The only operand is the input byte of format B (R62, R64). -/
inductive Instr where
  | init
  | updt (b : Byte)
  | updb (b : Byte)
  | emit
  | tgen
  | tver
  deriving DecidableEq, Repr

end Sys2Proof
end

