-- ==== Sys2Proof/WellFormed.lean ====
section
/-! DEFINITION. What is well formed: a command word (R65, R66, R70) and an instruction (R62).

The operand of an instruction has type Byte and all its 256 values are legal (R62), so a term of Instr has nothing
to check. The checks there are concern words, and are written from the match/mask rows of R70, independently of the
decoder of R68. -/

namespace Sys2Proof

/-- One row of R70: a word w is the row's command when w AND mask is the match value. -/
structure MatchRow where
  mnemonic : String
  pattern : CmdWord
  mask : CmdWord
  deriving DecidableEq, Repr

/-- The six rows of R70. -/
def matchRows : List MatchRow :=
  [⟨"INIT", 0x100#12, 0xFFF#12⟩, ⟨"UPDT", 0x200#12, 0xF00#12⟩, ⟨"UPDB", 0x300#12, 0xF00#12⟩,
   ⟨"EMIT", 0x400#12, 0xFFF#12⟩, ⟨"TGEN", 0x500#12, 0xFFF#12⟩, ⟨"TVER", 0x600#12, 0xFFF#12⟩]

/-- The word is a command of the row (R70). -/
def MatchRow.fits (r : MatchRow) (w : CmdWord) : Bool := w &&& r.mask == r.pattern

/-- Check of R65: the opcode of the word is that of some row. -/
def opcodeKnown (w : CmdWord) : Bool :=
  matchRows.any fun r => w &&& 0xF00#12 == r.pattern

/-- Check of R66: where the row of the word's opcode fixes the low eight bits, they are zero. -/
def zeroFieldClear (w : CmdWord) : Bool :=
  matchRows.all fun r => w &&& 0xF00#12 != r.pattern || r.mask == 0xF00#12 || w &&& 0x0FF#12 == 0#12

/-- The word is one of the legal commands (R70). -/
def legalWord (w : CmdWord) : Bool := matchRows.any fun r => r.fits w

/-- The mnemonic of the row an instruction stands for (R63). -/
def Instr.mnemonic : Instr → String
  | .init => "INIT"
  | .updt _ => "UPDT"
  | .updb _ => "UPDB"
  | .emit => "EMIT"
  | .tgen => "TGEN"
  | .tver => "TVER"

/-- Every instruction is well formed: format Z has no operand and every byte is a legal operand of format B
(R61, R62). -/
def Instr.wf : Instr → Bool
  | .init | .emit | .tgen | .tver => true
  | .updt _ | .updb _ => true

end Sys2Proof
end

