-- ==== Sys2Proof/Decode.lean ====
section
/-! DEFINITION. The decoder of R68, total on all 4096 words, and the encoder of R60 to R63. -/

namespace Sys2Proof

/-- Why a word is no command. -/
inductive Illegal where
  /-- Opcode 0x0 or 0x7 to 0xF (R65). -/
  | reservedOpcode
  /-- A format-Z opcode with cmd[7:0] not zero (R66). -/
  | nonZeroField
  deriving DecidableEq, Repr

/-- op = cmd[11:8] (R60). -/
def opField (w : CmdWord) : BitVec 4 := w.extractLsb' 8 4

/-- arg = cmd[7:0] (R60). -/
def argField (w : CmdWord) : Byte := w.extractLsb' 0 8

/-- A format-Z word: its arg field must be zero (R61, R66). -/
def decodeZ (arg : Byte) (i : Instr) : Except Illegal Instr :=
  if arg = 0#8 then .ok i else .error .nonZeroField

/-- The decoder (R68). It reads no state. -/
def decode (w : CmdWord) : Except Illegal Instr :=
  if opField w = 0x1#4 then decodeZ (argField w) .init
  else if opField w = 0x2#4 then .ok (.updt (argField w))
  else if opField w = 0x3#4 then .ok (.updb (argField w))
  else if opField w = 0x4#4 then decodeZ (argField w) .emit
  else if opField w = 0x5#4 then decodeZ (argField w) .tgen
  else if opField w = 0x6#4 then decodeZ (argField w) .tver
  else .error .reservedOpcode

/-- A word of format Z (R61). -/
def formatZ (op : BitVec 4) : CmdWord := op ++ 0#8

/-- A word of format B (R62). -/
def formatB (op : BitVec 4) (imm8 : Byte) : CmdWord := op ++ imm8

/-- The word of an instruction (R63). -/
def encode : Instr → CmdWord
  | .init => formatZ 0x1#4
  | .updt b => formatB 0x2#4 b
  | .updb b => formatB 0x3#4 b
  | .emit => formatZ 0x4#4
  | .tgen => formatZ 0x5#4
  | .tver => formatZ 0x6#4

/-- The command word made of the low `nbits` bits of a table word, if it fits the 12 bits of the command port
(R60: every command is exactly one 12-bit word, so there is no byte order and no second word). Log entry 14. -/
def tableWord (nbits w : Nat) : Option CmdWord :=
  if w % 2 ^ nbits < 4096 then some (BitVec.ofNat 12 (w % 2 ^ nbits)) else none

/-- The instruction the decoder reads from a word numbered as spec/opcode_table.json numbers it. -/
def decodeTableWord (nbits w : Nat) : Option Instr :=
  match tableWord nbits w with
  | none => none
  | some c =>
    match decode c with
    | .ok i => some i
    | .error _ => none

end Sys2Proof
end

