-- ==== Sys2Proof/Config.lean ====
section
/-! DEFINITION. The constants of R5, the parameters R6 leaves open, and the values the spec leaves free. -/

namespace Sys2Proof

/-- SEED = 0xFFFF (R5). -/
def Config.seed : Word := 0xFFFF#16

/-- POLY_REFL = 0xA001 (R5), the constant of the bitwise step. -/
def Config.polyRefl : Word := 0xA001#16

/-- POLY_NORM = 0x8005 (R5): the same polynomial written most significant bit first. No rule uses it. -/
def Config.polyNorm : Word := 0x8005#16

/-- TABLE_IMPL with TABLE_ROM (R6). `generated` is option (b) of the document, a table the TGEN command fills;
`embedded` is option (a), a table that holds the constant TABLE_ROM from reset on. TABLE_ROM has no meaning in the
first, so only the second carries it. Any ROM is allowed, a defective one too (R115). -/
inductive Build where
  | generated
  | embedded (rom : Vector Word 256)
  deriving DecidableEq, Repr

/-! The free values of the ports are functions of the edge number alone: at one and the same edge number they are the
same whatever the command, the build and the history. The spec ties them to nothing (I4: they may differ between
commands), so this is a DESIGN CHOICE, log entry 22. -/

/-- How many clock edges lie between the acceptance of a command at the given edge and the edge of its effect. FREE
VALUE (R173, I4: finite, otherwise open). Log entry 9; that the effect comes after the acceptance, entry 19; that the
number depends on the edge number alone, not on the command or the build, entry 22. -/
opaque Config.runEdges : Nat → Nat

/-- At how many clock edges out_valid is still 0 before an output byte is offered, counted from the given edge. FREE
VALUE (I14). Log entries 9 and 22. -/
opaque Config.offerEdges : Nat → Nat

/-- At how many clock edges cmd_ready is still 0 after a command ended, or after a reset, at the given edge. FREE
VALUE (R173, I14). Log entries 9, 12 and 22. -/
opaque Config.readyEdges : Nat → Nat

/-- What out_data shows at the given edge while out_valid is 0, whatever the reason. FREE VALUE: no rule states it.
Log entries 10 and 22. -/
opaque Config.idleOutData : Nat → Byte

end Sys2Proof
end

