-- ==== Sys2Proof/Machine/State.lean ====
section
/-! DEFINITION. The state of the engine (10_state.md), the reasons a step of the model can stop, and reset. -/

namespace Sys2Proof.Machine

/-- TSTATE, the status of the table (R23). The value 3 is never taken (I5). -/
inductive TState where
  | empty
  | loaded
  | verified
  deriving DecidableEq, Repr

/-- CAUSE, the fault cause (R24). -/
inductive Cause where
  | none
  | tableMismatch
  | illegalCmd
  | tableNotReady
  deriving DecidableEq, Repr

/-- The engine's three synchronous faults (R140), each with what it records. They are no stop of the model: taking
one leads to a next state, which is halted. -/
inductive EngineFault where
  | tableMismatch (i : Byte)
  | illegalCmd
  | tableNotReady
  deriving DecidableEq, Repr

/-- One written entry of the table space: its index and its 16-bit value. The unit of addressing is the whole
entry; there is no address of half an entry (R41). Log entry 2. -/
abbrev TableCell := Nat × Word

/-- The table space (R40, R41): the written entries, indices strictly rising. An index that is not listed has no
value: its contents are unspecified (R31, I2). Log entry 2. -/
abbrev Memory := List TableCell

/-- What the host does next (R8, R175): have a command word accepted, or assert reset. Log entry 4. -/
inductive HostAction where
  | command (w : CmdWord)
  | reset
  deriving DecidableEq, Repr

/-- The whole state of the engine is the tuple (ACC, T, TSTATE, CAUSE, FIDX, OUT) of 10_state.md; `build` carries
the parameters TABLE_IMPL and TABLE_ROM of the step (R6, R32), and `host` is what the host does next. -/
structure State where
  /-- ACC, the one data register (R20). -/
  acc : Word
  /-- T, the table (R22). -/
  table : Memory
  /-- TSTATE (R23). -/
  tstate : TState
  /-- CAUSE, sticky; the engine is halted exactly when it is not NONE (R24). -/
  cause : Cause
  /-- FIDX, the lowest wrong index of a TableMismatch, otherwise 0 (R25). -/
  fidx : Byte
  /-- OUT, the bytes emitted since the last reset, oldest first (R26). -/
  out : List Byte
  /-- TABLE_IMPL and TABLE_ROM (R6, R32); no step writes it. Log entry 1. -/
  build : Build
  /-- The model's own field: what the host does next, oldest first. Log entry 4. -/
  host : List HostAction
  deriving DecidableEq, Repr

/-- Why a step of the MODEL stops. None of these is a fault of the engine (R140), which is a next state. -/
inductive Fault where
  /-- Raised by `step`: the engine is halted and the host has no reset to come, so no step is enabled (R147).
  A stuck state. Safe. -/
  | halted
  /-- Raised by the meanings of UPDT and TVER: a table entry would be read that nothing has written (R30 (b), I2).
  No state reached from reset does so. Safe. -/
  | unwrittenEntry
  deriving DecidableEq, Repr

/-- Why a step of the model has no meaning. -/
inductive Refusal where
  /-- Raised by `exec` alone, for an instruction that has no meaning yet. Safe. No arm of `exec` uses it. -/
  | notModelled (mnemonic : String)
  deriving DecidableEq, Repr

/-- The 256 entries of a ROM as written entries of the table space. -/
def Memory.ofRom (rom : Vector Word 256) : Memory :=
  rom.toList.zipIdx.map fun p => (p.2, p.1)

/-- The reset state of R31 for a build, before a host that will do `host`. Every run starts at one (R162). Log
entry 16. -/
def State.resetOf (build : Build) (host : List HostAction) : State where
  acc := Config.seed
  table := match build with
    | .generated => []
    | .embedded rom => Memory.ofRom rom
  tstate := match build with
    | .generated => .empty
    | .embedded _ => .loaded
  cause := .none
  fidx := 0#8
  out := []
  build := build
  host := host

/-- The machine right after reset (R31). The build is GENERATED, the default 92_eei_decisions.md D14 recommends for
an open parameter; DESIGN CHOICE, log entry 1. The host has nothing to do yet; log entry 4. -/
def State.reset : State := State.resetOf .generated []

end Sys2Proof.Machine
end

