-- ==== Sys2Proof/Machine/Flags.lean ====
section
/-! DEFINITION. The status fields as the status outputs show them (R23, R24, R27). -/

namespace Sys2Proof.Machine

/-- The two bits of TSTATE (R23). -/
def TState.code : TState → BitVec 2
  | .empty => 0#2
  | .loaded => 1#2
  | .verified => 2#2

/-- The two bits of CAUSE (R24). -/
def Cause.code : Cause → BitVec 2
  | .none => 0#2
  | .tableMismatch => 1#2
  | .illegalCmd => 2#2
  | .tableNotReady => 3#2

/-- The engine is halted exactly when CAUSE is not 0 (R24). -/
def State.halted (s : State) : Bool := s.cause.code != 0#2

/-- The cause a fault leaves in CAUSE (R140). -/
def EngineFault.cause : EngineFault → Cause
  | .tableMismatch _ => .tableMismatch
  | .illegalCmd => .illegalCmd
  | .tableNotReady => .tableNotReady

/-- What a fault leaves in FIDX: the index of a TableMismatch, else 0 (R146; log entry 15). -/
def EngineFault.info : EngineFault → Byte
  | .tableMismatch i => i
  | .illegalCmd => 0#8
  | .tableNotReady => 0#8

/-- The status outputs (R27, R28). -/
structure Status where
  tstate : BitVec 2
  cause : BitVec 2
  fidx : Byte
  halt : Bool
  deriving DecidableEq, Repr

/-- What the status outputs show, at all times (R27). -/
def State.status (s : State) : Status :=
  { tstate := s.tstate.code, cause := s.cause.code, fidx := s.fidx, halt := s.halted }

end Sys2Proof.Machine
end

