-- ==== Sys2Proof/Machine/Operands.lean ====
section
/-! DEFINITION. How the operand and the parts of the accumulator are formed (R9, R10, R64). -/

namespace Sys2Proof.Machine

/-- zext_16(b): bits 15:8 zero (R9). The only widening there is; sext is never used. -/
def zext16 (b : Byte) : Word := b.setWidth 16

/-- v[7:0], the same as v AND 0xFF taken as a byte (R43). -/
def lowByte (v : Word) : Byte := v.extractLsb' 0 8

/-- v[15:8], the same as v >> 8 taken as a byte (R43). -/
def highByte (v : Word) : Byte := v.extractLsb' 8 8

/-- The one computed address of the table space: (ACC XOR zext_16(b)) AND 0xFF, an 8-bit index (R41, R90). -/
def tableIndex (a : Word) (b : Byte) : Byte := lowByte ((a ^^^ zext16 b) &&& 0x00FF#16)

end Sys2Proof.Machine
end

