-- ==== Sys2Proof/Machine/Reduction.lean ====
section
/-! DEFINITION. The pure functions of the arithmetic: Step1, Reduce8, TableEntry, UpdB (42_bitwise_strategy.md),
UpdT (41_table_strategy.md), Fold, Crc and Wire (44_transactions_and_laws.md). -/

namespace Sys2Proof.Machine

/-- Step1 (R100): the tested bit is bit 0 of the operand before the shift. -/
def step1 (a : Word) : Word :=
  if a.getLsbD 0 then (a >>> 1) ^^^ Config.polyRefl else a >>> 1

/-- Reduce8 (R101): Step1 eight times, whatever the operand. -/
def reduce8 (a : Word) : Word := step1 (step1 (step1 (step1 (step1 (step1 (step1 (step1 a)))))))

/-- Stage k of the bitwise pipeline, from its input s_0 (R105). -/
def stage (s0 : Word) : Nat → Word
  | 0 => s0
  | k + 1 => step1 (stage s0 k)

/-- TableEntry(i) (R102): the correct value of table entry i. -/
def tableEntry (i : Byte) : Word := reduce8 (zext16 i)

/-- UpdB(a, b) (R103): one byte through the bitwise pipeline. -/
def updB (a : Word) (b : Byte) : Word := reduce8 (a ^^^ zext16 b)

/-- The second half of UpdT: the shifted accumulator XOR the entry that was looked up (R90). -/
def tableStep (a entry : Word) : Word := (a >>> 8) ^^^ entry

/-- UpdT(Tbl, a, b) (R90): one byte through the table-driven unit. -/
def updT (tbl : Byte → Word) (a : Word) (b : Byte) : Word := tableStep a (tbl (tableIndex a b))

/-- Fold(a, data) (R125): the bytes in order, the first one first. -/
def fold (a : Word) (data : List Byte) : Word := data.foldl updB a

/-- Crc(data) (R125). -/
def crc (data : List Byte) : Word := fold Config.seed data

/-- Wire(v) (R125): the two result bytes, low byte first (R43). -/
def wire (v : Word) : List Byte := [lowByte v, highByte v]

end Sys2Proof.Machine
end

