-- ==== Sys2Proof/Machine/Ops.lean ====
section
/-! DEFINITION. The named operations over the table space, the registers and the output stream, fault entry, and
the one way out of a fault. -/

namespace Sys2Proof.Machine

/-- The value listed at an index, none where nothing is listed. -/
def Memory.readCell : Memory → Nat → Option Word
  | [], _ => none
  | (j, v) :: rest, i => if i = j then some v else Memory.readCell rest i

/-- The written entries after writing `v` at an index, indices still rising. -/
def Memory.writeCell : Memory → Nat → Word → Memory
  | [], i, v => [(i, v)]
  | (j, u) :: rest, i, v =>
    if i < j then (i, v) :: (j, u) :: rest
    else if i = j then (i, v) :: rest
    else (j, u) :: Memory.writeCell rest i v

/-- T[i] (R11): none where the contents are unspecified. -/
def Memory.read (m : Memory) (i : Byte) : Option Word := m.readCell i.toNat

/-- T[i] <- v (R11). -/
def Memory.write (m : Memory) (i : Byte) (v : Word) : Memory := m.writeCell i.toNat v

/-- Every listed index is at least `lo` and below 256, and the indices rise strictly. -/
def Memory.risingFrom : Nat → Memory → Bool
  | _, [] => true
  | lo, (j, _) :: rest => decide (lo ≤ j) && decide (j < 256) && Memory.risingFrom (j + 1) rest

/-- The canonical form: indices strictly rising, all of the table space. Equal tables are then equal lists. -/
def Memory.wf (m : Memory) : Bool := Memory.risingFrom 0 m

/-- The indices 0..255, upward (R11). -/
def tableIndices : List Byte := (List.range 256).map (BitVec.ofNat 8)

/-- Writing `f i` at each listed index, in the order of the list. -/
def Memory.fill (f : Byte → Word) (m : Memory) (is : List Byte) : Memory :=
  is.foldl (fun t i => t.write i (f i)) m

/-- What the comparison of the table with the bitwise reference finds. -/
inductive Verdict where
  | allMatch
  | mismatch (i : Byte)
  | unwritten (i : Byte)
  deriving DecidableEq, Repr

/-- Compares the entries at the listed indices with TableEntry, in order, up to the first that is wrong or that
nothing has written (R48, R113; log entry 18). -/
def Memory.verify (m : Memory) : List Byte → Verdict
  | [] => .allMatch
  | i :: rest =>
    match m.read i with
    | none => .unwritten i
    | some v => if v = tableEntry i then Memory.verify m rest else .mismatch i

/-- ACC <- v. -/
def State.setAcc (s : State) (v : Word) : State := { s with acc := v }

/-- T <- m. -/
def State.setTable (s : State) (m : Memory) : State := { s with table := m }

/-- TSTATE <- t. -/
def State.setTState (s : State) (t : TState) : State := { s with tstate := t }

/-- Emit(b) (R11, R26): b at the end of OUT. -/
def State.emit (s : State) (b : Byte) : State := { s with out := s.out ++ [b] }

/-- What the host still has to do, after the action that is now served. -/
def State.setHost (s : State) (h : List HostAction) : State := { s with host := h }

/-- Fault entry, `raise F(info)` (R146): CAUSE and FIDX are written, in place of every other effect of the command;
nothing is saved and control goes nowhere. -/
def State.raise (s : State) (f : EngineFault) : State :=
  { s with cause := f.cause, fidx := f.info }

/-- The return from a fault (R148) and the effect of reset in any state (R160): the reset state of R31, whatever the
state was. The build does not change. -/
def State.takeReset (s : State) : State := State.resetOf s.build s.host

end Sys2Proof.Machine
end

