-- ==== Sys2Proof/Machine/BitwiseStrategy.lean ====
section
/-! DEFINITION. UPDB (42_bitwise_strategy.md). -/

namespace Sys2Proof.Machine

/-- UPDB b (R104): ACC <- UpdB(ACC, b), in every table state. -/
def execUpdb (b : Byte) (s : State) : Host.Outcome State Fault Refusal := .next (s.setAcc (updB s.acc b))

end Sys2Proof.Machine
end

