-- ==== Sys2Proof/Machine/Session.lean ====
section
/-! DEFINITION. INIT and EMIT (40_session.md). -/

namespace Sys2Proof.Machine

/-- INIT (R80): ACC <- 0xFFFF. -/
def execInit (s : State) : Host.Outcome State Fault Refusal := .next (s.setAcc Config.seed)

/-- EMIT (R82): the low byte of ACC, then its high byte, at the end of OUT. ACC stays (R83). -/
def execEmit (s : State) : Host.Outcome State Fault Refusal :=
  .next ((s.emit (lowByte s.acc)).emit (highByte s.acc))

end Sys2Proof.Machine
end

