-- ==== Sys2Proof/Machine/TableInit.lean ====
section
/-! DEFINITION. TGEN and TVER (43_table_init.md). -/

namespace Sys2Proof.Machine

/-- TGEN (R112): in state EMPTY every entry is written, upward, and the table is LOADED; otherwise no effect. -/
def execTgen (s : State) : Host.Outcome State Fault Refusal :=
  match s.tstate with
  | .empty => .next ((s.setTable (s.table.fill tableEntry tableIndices)).setTState .loaded)
  | .loaded => .next s
  | .verified => .next s

/-- TVER (R113): TableNotReady in state EMPTY; in state LOADED the comparison, which verifies the table or raises
TableMismatch at the lowest wrong index; no effect in state VERIFIED. In a state where an entry to be compared was
never written, which no run reaches, the step stops (log entry 3). -/
def execTver (s : State) : Host.Outcome State Fault Refusal :=
  match s.tstate with
  | .empty => .next (s.raise .tableNotReady)
  | .loaded =>
    match s.table.verify tableIndices with
    | .allMatch => .next (s.setTState .verified)
    | .mismatch i => .next (s.raise (.tableMismatch i))
    | .unwritten _ => .fault .unwrittenEntry
  | .verified => .next s

end Sys2Proof.Machine
end

