-- ==== Sys2Proof/Machine/TableStrategy.lean ====
section
/-! DEFINITION. UPDT (41_table_strategy.md). -/

namespace Sys2Proof.Machine

/-- UPDT b (R91): TableNotReady unless TSTATE is VERIFIED, else ACC <- UpdT(T, ACC, b) with one read of T (R48).
A VERIFIED table has every entry; in a state where it lacks the one that is read, which no run reaches, the step
stops (log entry 3). -/
def execUpdt (b : Byte) (s : State) : Host.Outcome State Fault Refusal :=
  match s.tstate with
  | .empty => .next (s.raise .tableNotReady)
  | .loaded => .next (s.raise .tableNotReady)
  | .verified =>
    match s.table.read (tableIndex s.acc b) with
    | none => .fault .unwrittenEntry
    | some entry => .next (s.setAcc (tableStep s.acc entry))

end Sys2Proof.Machine
end

