-- ==== Sys2Proof/Machine/Dispatch.lean ====
section
/-! DEFINITION. One arm per command: the meaning of an accepted, decoded command. -/

namespace Sys2Proof.Machine

def exec (i : Instr) (s : State) : Host.Outcome State Fault Refusal :=
  match i with
  | .init => Sys2Proof.Machine.execInit s
  | .updt b => Sys2Proof.Machine.execUpdt b s
  | .updb b => Sys2Proof.Machine.execUpdb b s
  | .emit => Sys2Proof.Machine.execEmit s
  | .tgen => Sys2Proof.Machine.execTgen s
  | .tver => Sys2Proof.Machine.execTver s

end Sys2Proof.Machine
end

