-- ==== Sys2Proof/Machine/Accept.lean ====
section
/-! DEFINITION. What the engine does with a word it accepts, and with the host's next action. -/

namespace Sys2Proof.Machine

/-- The execution of one accepted word (R8): the decoded command, or IllegalCmd where the word is none (R142). It is
called only for an engine that is not halted; the priority of R145 is decoding, then the checks of the meaning. Log entry 7. -/
def acceptWord (w : CmdWord) (s : State) : Host.Outcome State Fault Refusal :=
  match decode w with
  | .ok i => exec i s
  | .error _ => .next (s.raise .illegalCmd)

/-- What the host does after its next reset, none if it never resets. A halted engine accepts none of the words
before that reset, and the host withdraws them (R34, R147). Log entry 6. -/
def afterReset : List HostAction → Option (List HostAction)
  | [] => none
  | .command _ :: rest => afterReset rest
  | .reset :: rest => some rest

/-- A step of an engine that is not halted: the host's next action. With none offered the engine keeps its state
(R153; log entry 5). -/
def runStep (s : State) : Host.Outcome State Fault Refusal :=
  match s.host with
  | [] => .next s
  | .command w :: rest => acceptWord w (s.setHost rest)
  | .reset :: rest => .next (s.setHost rest).takeReset

/-- A step of a halted engine: the host's next reset, and no other (R147, R148). -/
def haltedStep (s : State) : Host.Outcome State Fault Refusal :=
  match afterReset s.host with
  | none => .fault .halted
  | some rest => .next (s.setHost rest).takeReset

/-- The state with a word as the host's next action. -/
def State.offerWord (s : State) (w : CmdWord) : State := s.setHost (.command w :: s.host)

end Sys2Proof.Machine
end

