-- ==== Sys2Proof/Machine/Step.lean ====
section
/-! DEFINITION. One step of the engine at the transaction level (R8). -/

namespace Sys2Proof.Machine

/-- One step: of a halted engine the host's next reset, otherwise the host's next action. -/
def step (s : State) : Host.Outcome State Fault Refusal :=
  if s.halted then haltedStep s else runStep s

/-- The state whose very next step accepts the given word: it is put before everything the host does. A number that
is no 12-bit word cannot be offered and changes nothing. A halted engine still accepts nothing. Log entries 4, 14. -/
def State.withFetchWord (s : State) (nbits w : Nat) : State :=
  match tableWord nbits w with
  | none => s
  | some c => s.offerWord c

end Sys2Proof.Machine
end

