-- ==== Sys2Proof/Machine/Transactions.lean ====
section
/-! DEFINITION. The pseudo-instructions of R72 as lists of commands (R120 to R123), and a run of a finite list of
command words (R176). -/

namespace Sys2Proof.Machine

/-- UPD.T d0 ... d(n-1) (R123). -/
def updTs (data : List Byte) : List Instr := data.map .updt

/-- UPD.B d0 ... d(n-1) (R123). -/
def updBs (data : List Byte) : List Instr := data.map .updb

/-- CRC16.T d0 ... d(n-1) (R120). -/
def crc16T (data : List Byte) : List Instr := .init :: (updTs data ++ [.emit])

/-- CRC16.B d0 ... d(n-1) (R121). -/
def crc16B (data : List Byte) : List Instr := .init :: (updBs data ++ [.emit])

/-- BOOT (R122). -/
def boot : List Instr := [.tgen, .tver]

/-- The words the host sends for a list of commands (R72). -/
def wordsOf (is : List Instr) : List CmdWord := is.map encode

/-- The state with these words, and nothing else, as what the host does next. -/
def State.withWords (s : State) (ws : List CmdWord) : State := s.setHost (ws.map .command)

/-- So many steps, stopping at the first that has no next state: `Host.Core.run` of the engine
(`runSteps_eq_core_run` in Laws/Run.lean). -/
def runSteps : Nat → State → Host.Outcome State Fault Refusal
  | 0, s => .next s
  | n + 1, s =>
    match step s with
    | .next t => runSteps n t
    | .fault f => .fault f
    | .refused r => .refused r

/-- As many steps as there are words, of an engine the host offers these words and no reset. -/
def runWords (ws : List CmdWord) (s : State) : Host.Outcome State Fault Refusal :=
  runSteps ws.length (s.withWords ws)

/-- The same for a list of commands. -/
def runCommands (is : List Instr) (s : State) : Host.Outcome State Fault Refusal := runWords (wordsOf is) s

end Sys2Proof.Machine
end

