-- ==== Sys2Proof/Machine/Assembler.lean ====
section
/-! DEFINITION. The assembler notation of R71: one command per line. A line is given as its list of characters. What
R71 leaves open (blanks, lower-case hexadecimal digits, leading zeros, empty lines) is log entry 13. -/

namespace Sys2Proof.Machine

/-- Blank and tab. -/
def isBlank (c : Char) : Bool := c == ' ' || c == '\t'

/-- The line up to a comment: a # starts one that runs to the end of the line. -/
def stripComment (l : List Char) : List Char := l.takeWhile (· != '#')

/-- Splits at blanks; `cur` is the field being read, in reverse order. -/
def fieldsFrom (cur : List Char) : List Char → List (List Char)
  | [] => if cur.isEmpty then [] else [cur.reverse]
  | c :: rest =>
    if isBlank c then
      if cur.isEmpty then fieldsFrom [] rest else cur.reverse :: fieldsFrom [] rest
    else fieldsFrom (c :: cur) rest

/-- The blank-separated fields of a line without its comment. -/
def lineFields (l : List Char) : List (List Char) := fieldsFrom [] (stripComment l)

/-- The value of a digit in the given base, 10 or 16. -/
def digitValue (base : Nat) (c : Char) : Option Nat :=
  let n := c.toNat
  let v := if 48 ≤ n ∧ n ≤ 57 then n - 48
    else if 65 ≤ n ∧ n ≤ 70 then n - 55
    else if 97 ≤ n ∧ n ≤ 102 then n - 87
    else base
  if v < base then some v else none

/-- The number a list of digits denotes, continuing from `acc`. -/
def digitsFrom (base acc : Nat) : List Char → Option Nat
  | [] => some acc
  | c :: rest =>
    match digitValue base c with
    | some d => digitsFrom base (acc * base + d) rest
    | none => none

/-- An unsigned number, hexadecimal with the prefix 0x or decimal (R71). -/
def number : List Char → Option Nat
  | [] => none
  | '0' :: 'x' :: [] => none
  | '0' :: 'x' :: d :: rest => digitsFrom 16 0 (d :: rest)
  | c :: rest => digitsFrom 10 0 (c :: rest)

/-- The operand of UPDT and UPDB: a number 0..255 (R71). -/
def operand (l : List Char) : Option Byte :=
  match number l with
  | some n => if n < 256 then some (BitVec.ofNat 8 n) else none
  | none => none

/-- The operands of a pseudo-instruction: any number of bytes (R72). -/
def operands : List (List Char) → Option (List Byte)
  | [] => some []
  | l :: rest =>
    match operand l, operands rest with
    | some b, some bs => some (b :: bs)
    | _, _ => none

/-- The commands of a line that is not empty: one command (R71), or the expansion of a pseudo-instruction (R72). -/
def commandsOf : List (List Char) → Option (List Instr)
  | [['I', 'N', 'I', 'T']] => some [.init]
  | [['E', 'M', 'I', 'T']] => some [.emit]
  | [['T', 'G', 'E', 'N']] => some [.tgen]
  | [['T', 'V', 'E', 'R']] => some [.tver]
  | [['U', 'P', 'D', 'T'], n] => (operand n).map fun b => [.updt b]
  | [['U', 'P', 'D', 'B'], n] => (operand n).map fun b => [.updb b]
  | [['B', 'O', 'O', 'T']] => some boot
  | ['C', 'R', 'C', '1', '6', '.', 'T'] :: ds => (operands ds).map crc16T
  | ['C', 'R', 'C', '1', '6', '.', 'B'] :: ds => (operands ds).map crc16B
  | ['U', 'P', 'D', '.', 'T'] :: ds => (operands ds).map updTs
  | ['U', 'P', 'D', '.', 'B'] :: ds => (operands ds).map updBs
  | _ => none

/-- Assembles one line into its words, none for a line that is malformed. A line with nothing but blanks and a
comment has no words (R63, R71, R72). -/
def assembleLine (l : List Char) : Option (List CmdWord) :=
  match lineFields l with
  | [] => some []
  | fs => (commandsOf fs).map wordsOf

/-- Splits at line feeds; `cur` is the line being read, in reverse order. -/
def linesFrom (cur : List Char) : List Char → List (List Char)
  | [] => [cur.reverse]
  | c :: rest => if c == '\n' then cur.reverse :: linesFrom [] rest else linesFrom (c :: cur) rest

/-- The words of some lines, none if one of them is malformed. -/
def assembleLines : List (List Char) → Option (List CmdWord)
  | [] => some []
  | l :: rest =>
    match assembleLine l, assembleLines rest with
    | some ws, some wss => some (ws ++ wss)
    | _, _ => none

/-- Assembles a text, one command per line (R71). -/
def assemble (text : List Char) : Option (List CmdWord) := assembleLines (linesFrom [] text)

/-- The hexadecimal digit of a value below 16. -/
def hexDigit (v : BitVec 4) : Char := Char.ofNat (if v.toNat < 10 then 48 + v.toNat else 55 + v.toNat)

/-- A byte as an operand is written: 0x and two digits. -/
def showByte (b : Byte) : List Char := ['0', 'x', hexDigit (b.extractLsb' 4 4), hexDigit (b.extractLsb' 0 4)]

/-- The line that stands for an instruction (R71). -/
def showInstr : Instr → List Char
  | .init => ['I', 'N', 'I', 'T']
  | .updt b => ['U', 'P', 'D', 'T', ' '] ++ showByte b
  | .updb b => ['U', 'P', 'D', 'B', ' '] ++ showByte b
  | .emit => ['E', 'M', 'I', 'T']
  | .tgen => ['T', 'G', 'E', 'N']
  | .tver => ['T', 'V', 'E', 'R']

end Sys2Proof.Machine
end

