-- ==== Sys2Proof/Machine/Ports.lean ====
section
/-! DEFINITION. The ports (R28) and the two handshakes (R34, R35), one rising edge of clk at a time. This layer lies
above the transaction level of R8: its only access to the engine's state is `acceptWord` and `State.takeReset`, the
same as `step` has. How many edges anything takes is free (R173, I4, I14; log entry 9), but for the one edge by which
an effect comes after its acceptance at the least (log entry 19). -/

namespace Sys2Proof.Machine

/-- The inputs at one rising edge of clk (R28). -/
structure PinsIn where
  rst : Bool
  cmdValid : Bool
  cmd : CmdWord
  outReady : Bool
  deriving DecidableEq, Repr

/-- The outputs at one rising edge of clk (R28). -/
structure PinsOut where
  cmdReady : Bool
  outValid : Bool
  outData : Byte
  status : Status
  deriving DecidableEq, Repr

/-- Where the engine is between two edges. -/
inductive Phase where
  /-- No command in progress; a command can be accepted unless the engine is halted (R34). -/
  | ready
  /-- An accepted command that takes effect after `left` more edges. -/
  | running (w : CmdWord) (left : Nat)
  /-- An EMIT whose listed bytes the host has not taken yet; the first is offered after `left` more edges (R35). -/
  | delivering (bytes : List Byte) (left : Nat)
  /-- No command in progress; cmd_ready stays 0 for one edge and `left` more (R173). -/
  | recovering (left : Nat)
  deriving DecidableEq, Repr

/-- The engine with its ports. -/
structure PortState where
  /-- The engine's state. Its field `host` is not used: the pins say what the host does. -/
  core : State
  phase : Phase
  /-- The bytes the host has taken, oldest first; a byte already taken stays taken (R160). The model's record. -/
  heard : List Byte
  /-- How many bytes of `heard` were taken before the last reset. The model's record. -/
  mark : Nat
  /-- The number of edges passed: the index of the free values. The model's counter. Log entries 9 and 10. -/
  edges : Nat
  deriving DecidableEq, Repr

/-- The bytes of OUT that the host has not taken yet (R35). -/
def Phase.waiting : Phase → List Byte
  | .delivering bytes _ => bytes
  | _ => []

/-- The byte offered at the output port, if one is (R35). -/
def Phase.offered : Phase → Option Byte
  | .delivering (b :: _) 0 => some b
  | _ => none

/-- The engine can accept a command: none is in progress, it is not halted and not in reset (R34, R160). -/
def PortState.cmdReady (p : PortState) (rst : Bool) : Bool :=
  !rst && !p.core.halted && decide (p.phase = .ready)

/-- The engine offers an output byte; never while rst is 1 (R35, R160). -/
def PortState.outValid (p : PortState) (rst : Bool) : Bool := !rst && p.phase.offered.isSome

/-- The outputs (R28). What out_data shows whenever out_valid is 0, at an edge with rst = 1 while a byte waits to be
taken too, no rule states: a free value, log entry 10. -/
def PortState.pins (p : PortState) (rst : Bool) : PinsOut :=
  { cmdReady := p.cmdReady rst
    outValid := p.outValid rst
    outData := (if p.outValid rst then p.phase.offered else none).getD (Config.idleOutData p.edges)
    status := p.core.status }

/-- The word accepted at an edge (R34). -/
def PortState.accepts (p : PortState) (i : PinsIn) : Option CmdWord :=
  if p.cmdReady i.rst && i.cmdValid then some i.cmd else none

/-- The byte taken at an edge (R35). -/
def PortState.takes (p : PortState) (i : PinsIn) : Option Byte :=
  if p.outValid i.rst && i.outReady then p.phase.offered else none

/-- The phase after a command ended or after a reset: cmd_ready is 0 for a free number of edges, 0 of them too (R173).
Log entries 9 and 12. -/
def recoverPhase (edges : Nat) : Phase :=
  match Config.readyEdges edges with
  | 0 => .ready
  | n + 1 => .recovering n

/-- An edge with rst = 1 (R160): the reset state, whatever the state was; a command in progress is abandoned and the
bytes not yet taken are discarded. Log entries 8 and 12. -/
def PortState.resetEdge (p : PortState) : PortState :=
  { core := p.core.takeReset
    phase := recoverPhase p.edges
    heard := p.heard
    mark := p.heard.length
    edges := p.edges + 1 }

/-- The phase after a command took effect: an EMIT ends when its bytes are taken (R35), every other command at once. -/
def phaseAfter (edges : Nat) (newBytes : List Byte) : Phase :=
  match newBytes with
  | [] => recoverPhase edges
  | b :: bs => .delivering (b :: bs) (Config.offerEdges edges)

/-- The effect of the accepted word, at the end of its run (R8, R34): its whole effect at once. The bytes of an EMIT are
in OUT from here on and are offered afterwards. Log entry 11. -/
def PortState.finish (p : PortState) (w : CmdWord) : Host.Outcome PortState Fault Refusal :=
  match acceptWord w p.core with
  | .next s =>
    .next { p with
      core := s
      phase := phaseAfter p.edges (s.out.drop p.core.out.length)
      edges := p.edges + 1 }
  | .fault f => .fault f
  | .refused r => .refused r

/-- The state after the edge at which the host may take the byte that is offered (R35). A byte that is not taken stays
offered: once 1 for a byte, out_valid stays 1 until that byte is taken or a reset comes. DESIGN CHOICE, log entry 21. -/
def PortState.deliver (p : PortState) (b : Byte) (bs : List Byte) (outReady : Bool) : PortState :=
  if outReady then
    { p with
      phase := phaseAfter p.edges bs
      heard := p.heard ++ [b]
      edges := p.edges + 1 }
  else { p with edges := p.edges + 1 }

/-- The state after an edge that changes nothing but the phase. -/
def PortState.goOn (p : PortState) (ph : Phase) : PortState := { p with phase := ph, edges := p.edges + 1 }

/-- An edge with rst = 0. An accepted word takes effect at a later edge, the next one at the earliest, so that
cmd_ready is 0 for at least one edge after an acceptance. DESIGN CHOICE, log entry 19. An engine that is ready stays
ready until a word is accepted or a reset comes: once 1, cmd_ready stays 1 till then. DESIGN CHOICE, log entry 20. -/
def PortState.runEdge (p : PortState) (i : PinsIn) : Host.Outcome PortState Fault Refusal :=
  match p.phase with
  | .ready =>
    match p.accepts i with
    | some w => .next (p.goOn (.running w (Config.runEdges p.edges)))
    | none => .next (p.goOn .ready)
  | .running w (n + 1) => .next (p.goOn (.running w n))
  | .running w 0 => p.finish w
  | .delivering bytes (n + 1) => .next (p.goOn (.delivering bytes n))
  | .delivering (b :: bs) 0 => .next (p.deliver b bs i.outReady)
  | .delivering [] 0 => .next (p.goOn (recoverPhase p.edges))
  | .recovering (n + 1) => .next (p.goOn (.recovering n))
  | .recovering 0 => .next (p.goOn .ready)

/-- One rising edge of clk. Reset has priority over everything (R145, R160). -/
def PortState.edge (p : PortState) (i : PinsIn) : Host.Outcome PortState Fault Refusal :=
  if i.rst then .next p.resetEdge else p.runEdge i

/-- The edges at which the given inputs stand, one after the other, stopping at the first fault. -/
def PortState.run : List PinsIn → PortState → Host.Outcome PortState Fault Refusal
  | [], p => .next p
  | i :: rest, p =>
    match p.edge i with
    | .next p' => PortState.run rest p'
    | .fault f => .fault f
    | .refused r => .refused r

/-- The words accepted at those edges, in order (R34). -/
def PortState.acceptedWords : List PinsIn → PortState → List CmdWord
  | [], _ => []
  | i :: rest, p =>
    match p.edge i with
    | .next p' => (p.accepts i).toList ++ PortState.acceptedWords rest p'
    | .fault _ => (p.accepts i).toList
    | .refused _ => (p.accepts i).toList

/-- The accepted word that has not taken effect yet, if there is one. -/
def Phase.inProgress : Phase → List CmdWord
  | .running w _ => [w]
  | _ => []

/-- The command words among what a host does. -/
def commandWords (acts : List HostAction) : List CmdWord :=
  acts.filterMap fun a => match a with
    | .command w => some w
    | .reset => none

/-- The engine with its ports right after the first reset of a build, at a given count of edges (R31, R162). -/
def PortState.resetOf (build : Build) (edges : Nat) : PortState :=
  { core := State.resetOf build []
    phase := recoverPhase edges
    heard := []
    mark := 0
    edges := edges }

end Sys2Proof.Machine
end

