-- ==== Sys2Proof/Safety.lean ====
section
/-! DEFINITION. What counts as a safe state and as an ended run, in the terms the statements use. -/

namespace Sys2Proof.Machine

/-- The table holds the correct value at every index (R22). -/
def Memory.Correct (m : Memory) : Prop := ∀ i : Byte, m.read i = some (tableEntry i)

/-- The lowest index at which the table does not hold the correct value is `i` (R25). -/
def Memory.LowestWrong (m : Memory) (i : Byte) : Prop :=
  m.read i ≠ some (tableEntry i) ∧ ∀ j : Byte, j.toNat < i.toNat → m.read j = some (tableEntry j)

/-- What the table holds, by build and table status (R22, R23, R31, R112, R113): nothing exactly when EMPTY, which
only a GENERATED build is; the correct values in a GENERATED build that is no longer EMPTY; TABLE_ROM in an EMBEDDED
build; the correct values whenever VERIFIED. -/
structure State.TableInv (s : State) : Prop where
  canonical : s.table.wf = true
  empty_unwritten : s.tstate = .empty → s.table = [] ∧ s.build = .generated
  generated_correct : s.build = .generated → s.tstate ≠ .empty → s.table.Correct
  embedded_rom : ∀ rom, s.build = .embedded rom → s.tstate ≠ .empty ∧ s.table = Memory.ofRom rom
  verified_correct : s.tstate = .verified → s.table.Correct

/-- What CAUSE and FIDX say (R24, R25, R141): FIDX is 0 unless the cause is a TableMismatch, which leaves the table
LOADED and FIDX at its lowest wrong index. -/
structure State.FaultInv (s : State) : Prop where
  fidx_zero : s.cause ≠ .tableMismatch → s.fidx = 0#8
  mismatch_lowest : s.cause = .tableMismatch → s.tstate = .loaded ∧ s.table.LowestWrong s.fidx

/-- The invariant of the engine. -/
structure State.Inv (s : State) : Prop where
  table : s.TableInv
  fault : s.FaultInv
  /-- OUT grows by two bytes at a time (R82). -/
  out_even : s.out.length % 2 = 0

/-- The run of the words from `s` completed (R176): every word was accepted and ended with CAUSE = 0; `t` is where
it ended. -/
def Completed (ws : List CmdWord) (s t : State) : Prop :=
  runSteps ws.length (s.withWords ws) = .next t ∧ t.cause = .none ∧ t.host = []

/-- The run of the words from `s` halted (R176): the first `k` words were accepted, the last of them raised a fault,
and the rest is never executed; `t` is where it halted. -/
def HaltedAfter (k : Nat) (ws : List CmdWord) (s t : State) : Prop :=
  k ≤ ws.length ∧ runSteps k (s.withWords ws) = .next t ∧ t.cause ≠ .none ∧
    t.host = (ws.drop k).map .command ∧ step t = .fault .halted

/-- What the two handshakes keep (R35, R147): the bytes taken since the last reset, followed by the bytes that wait,
are OUT; at most two bytes wait; none waits at a halt; and an EMIT that still delivers has a byte to deliver. -/
structure PortState.Inv (p : PortState) : Prop where
  core : p.core.Inv
  heard_waiting : p.heard.drop p.mark ++ p.phase.waiting = p.core.out
  mark_le : p.mark ≤ p.heard.length
  waiting_le_two : p.phase.waiting.length ≤ 2
  halted_none_waits : p.core.halted = true → p.phase.waiting = []
  delivering_nonempty : ∀ bytes n, p.phase = .delivering bytes n → bytes ≠ []
  running_not_halted : ∀ w n, p.phase = .running w n → p.core.halted = false

end Sys2Proof.Machine
end

