-- ==== Sys2Proof/Certificates/Slice0/Obligations.lean ====
section
/-! DEFINITION. The statements for the provers. Each docstring names the rules of spec/ it formalises, and the log
entry where a clause rests on a choice of the model. -/

open Sys2Proof Sys2Proof.Machine

/-! ## Reset and the status fields (10_state.md, 70_reset_and_hazards.md) -/

/-- R31: every field of the reset state, in both builds. That the contents of T are unspecified in a GENERATED build
is the absence of a value (log entry 2). -/
def Obligations.ResetStateOfBothBuilds : Prop :=
  (∀ h : List HostAction, ∃ s, s = State.resetOf .generated h ∧ s.acc = 0xFFFF#16 ∧ (∀ i, s.table.read i = none) ∧
    s.tstate = .empty ∧ s.cause = .none ∧ s.fidx = 0#8 ∧ s.out = [] ∧ s.status = ⟨0#2, 0#2, 0#8, false⟩) ∧
  (∀ (rom : Vector Word 256) (h : List HostAction), ∃ s, s = State.resetOf (.embedded rom) h ∧ s.acc = 0xFFFF#16 ∧
    (∀ i : Byte, s.table.read i = some (rom[i.toNat]'i.isLt)) ∧
    s.tstate = .loaded ∧ s.cause = .none ∧ s.fidx = 0#8 ∧ s.out = [] ∧ s.status = ⟨1#2, 0#2, 0#8, false⟩)

/-- R160: at an edge with rst = 1 the state becomes the reset state of the build whatever it was, nothing is accepted
or taken, a command in progress is abandoned, untaken bytes are discarded and taken ones stay taken; and at the
transaction level reset is a step available in every state, the halted ones among them. -/
def Obligations.ResetHasPriorityInEveryState : Prop :=
  (∀ (p : PortState) (i : PinsIn), i.rst = true →
    p.cmdReady i.rst = false ∧ p.outValid i.rst = false ∧ p.accepts i = none ∧ p.takes i = none ∧
    ∃ p', p.edge i = .next p' ∧ p'.core = State.resetOf p.core.build p.core.host ∧ p'.phase.waiting = [] ∧
      p'.phase.inProgress = [] ∧ p'.heard = p.heard) ∧
  (∀ (s : State) (rest : List HostAction), s.host = .reset :: rest → step s = .next (State.resetOf s.build rest))

/-- R24: the codes of CAUSE, halted exactly when it is not 0, and sticky: once it is not 0 a step that has a next
state is a reset, which sets it back to 0. -/
def Obligations.CauseIsStickyUntilReset : Prop :=
  Cause.none.code = 0#2 ∧ Cause.tableMismatch.code = 1#2 ∧ Cause.illegalCmd.code = 2#2 ∧
  Cause.tableNotReady.code = 3#2 ∧
  (∀ s : State, s.halted = true ↔ s.cause ≠ .none) ∧
  (∀ s t : State, s.cause ≠ .none → step s = .next t →
    .reset ∈ s.host ∧ t = State.resetOf s.build t.host ∧ t.cause = .none)

/-- R23: the codes of TSTATE (3 is never taken) and its only transitions. A step of a running engine leaves TSTATE
as it is, or is an accepted TGEN from EMPTY to LOADED, an accepted TVER from LOADED to VERIFIED that finds no
mismatch, or a reset. -/
def Obligations.TableStatusMovesForwardOnly : Prop :=
  TState.empty.code = 0#2 ∧ TState.loaded.code = 1#2 ∧ TState.verified.code = 2#2 ∧ (∀ x : TState, x.code ≠ 3#2) ∧
  (∀ s t : State, step s = .next t →
    t.tstate = s.tstate ∨
    (∃ rest, s.host = .command 0x500#12 :: rest ∧ s.tstate = .empty ∧ t.tstate = .loaded) ∨
    (∃ rest, s.host = .command 0x600#12 :: rest ∧ s.tstate = .loaded ∧ s.table.Correct ∧ t.tstate = .verified) ∨
    (.reset ∈ s.host ∧ t = State.resetOf s.build t.host))

/-- R27: the status outputs show the three status fields, and halt is 1 exactly when CAUSE is not 0. -/
def Obligations.StatusOutputsShowTheFields : Prop :=
  ∀ (p : PortState) (rst : Bool),
    (p.pins rst).status.tstate = p.core.tstate.code ∧ (p.pins rst).status.cause = p.core.cause.code ∧
    (p.pins rst).status.fidx = p.core.fidx ∧
    ((p.pins rst).status.halt = true ↔ p.core.cause.code ≠ 0#2)

/-- R26: OUT is append-only. An accepted word appends the low byte of ACC and then its high byte if it is the EMIT
word, and nothing otherwise; a step with nothing offered keeps OUT (log entry 5); the next reset of the host, of a
running engine or of a halted one with words before it (log entry 6), empties OUT. -/
def Obligations.OutIsAppendOnly : Prop :=
  (∀ (s t : State) (w : CmdWord) (rest : List HostAction), s.cause = .none → s.host = .command w :: rest →
    step s = .next t →
    t.out = s.out ++ (if w = 0x400#12 then [s.acc.setWidth 8, (s.acc >>> 8).setWidth 8] else [])) ∧
  (∀ s t : State, s.cause = .none → s.host = [] → step s = .next t → t.out = s.out) ∧
  (∀ (s : State) (ws : List CmdWord) (rest : List HostAction), (ws = [] ∨ s.cause ≠ .none) →
    s.host = ws.map .command ++ .reset :: rest → ∃ t, step s = .next t ∧ t.out = [])

/-- R22, R47, R53: T is written only in state EMPTY and only by TGEN; after that only a reset changes an entry. -/
def Obligations.TableIsWrittenOnlyByTgenWhenEmpty : Prop :=
  ∀ (s t : State) (w : CmdWord) (rest : List HostAction), s.cause = .none → s.host = .command w :: rest →
    step s = .next t → (w ≠ 0x500#12 ∨ s.tstate ≠ .empty) → ∀ k : Nat, t.table.readCell k = s.table.readCell k

/-- R20: what writes ACC. An accepted INIT seeds it, an UPDB, and an UPDT on a verified table, take it one byte
further, and every other accepted word leaves it. -/
def Obligations.AccIsWrittenBySeedAndUpdatesOnly : Prop :=
  ∀ (s t : State) (w : CmdWord) (rest : List HostAction), s.TableInv → s.cause = .none →
    s.host = .command w :: rest → step s = .next t →
    (decode w = .ok .init ∧ t.acc = 0xFFFF#16) ∨
    (∃ b, (decode w = .ok (.updb b) ∨ (decode w = .ok (.updt b) ∧ s.tstate = .verified)) ∧ t.acc = updB s.acc b) ∨
    ((decode w ≠ .ok .init ∧ (∀ b, decode w ≠ .ok (.updb b)) ∧
      (∀ b, decode w = .ok (.updt b) → s.tstate ≠ .verified)) ∧ t.acc = s.acc)

/-! ## Encoding (30_encoding.md) -/

/-- R60 to R63: decoding the word of an instruction gives it back, with every operand at every value. Every
instruction is well formed, so none is shut out. -/
def Obligations.DecodeOfEncodeIsTheInstruction : Prop :=
  ∀ i : Instr, i.wf = true ∧ decode (encode i) = .ok i

/-- R68: each legal word has one meaning, and encoding that meaning gives the word back: no bit is dropped. -/
def Obligations.EncodeOfDecodeIsTheWord : Prop :=
  ∀ (w : CmdWord) (i : Instr), decode w = .ok i → encode i = w

/-- R70: a word decodes to a command exactly when it fits a row, the row being the one of the command's mnemonic; no
word fits two rows; 516 of the 4096 words are legal. -/
def Obligations.DecoderAgreesWithMatchAndMask : Prop :=
  (∀ w : CmdWord, (∃ i, decode w = .ok i) ↔ ∃ r ∈ matchRows, w &&& r.mask = r.pattern) ∧
  (∀ (w : CmdWord) (i : Instr), decode w = .ok i → ∃ r ∈ matchRows, w &&& r.mask = r.pattern ∧ r.mnemonic = i.mnemonic) ∧
  (∀ (w : CmdWord), ∀ r ∈ matchRows, ∀ r' ∈ matchRows, w &&& r.mask = r.pattern → w &&& r'.mask = r'.pattern → r = r') ∧
  ((List.range 4096).countP fun n => legalWord (BitVec.ofNat 12 n)) = 516

/-- A few words of 95_test_vectors.md section 2.1 and what they decode to. -/
def Obligations.SampleWordsDecodeAsListed : Prop :=
  decode 0b000100000000#12 = .ok .init ∧ decode 0b001000000110#12 = .ok (.updt 0x06#8) ∧
  decode 0b001110100101#12 = .ok (.updb 0xA5#8) ∧ decode 0b010000000000#12 = .ok .emit ∧
  decode 0b010100000000#12 = .ok .tgen ∧ decode 0b011000000000#12 = .ok .tver ∧
  decode 0b010010000000#12 = .error .nonZeroField ∧ decode 0b111111111111#12 = .error .reservedOpcode

/-- R65, R66: an accepted word with a reserved opcode, or with a format-Z opcode and cmd[7:0] not zero, raises
IllegalCmd and does nothing else. -/
def Obligations.IllegalWordRaisesIllegalCmd : Prop :=
  ∀ (s : State) (w : CmdWord) (rest : List HostAction), s.cause = .none → s.host = .command w :: rest →
    ((w.toNat / 256 = 0 ∨ 7 ≤ w.toNat / 256) ∨
      (w.toNat / 256 ∈ [1, 4, 5, 6] ∧ w.toNat % 256 ≠ 0)) →
    step s = .next { s with host := rest, cause := .illegalCmd, fidx := 0#8 }

/-- R8, R68: an engine that is not halted, offered a word that decodes to an instruction, executes exactly that
instruction, with the word taken off what the host does next. -/
def Obligations.StepRunsTheDecodedInstruction : Prop :=
  ∀ (s : State) (w : CmdWord) (rest : List HostAction) (i : Instr), s.halted = false →
    s.host = .command w :: rest → decode w = .ok i → step s = exec i { s with host := rest }

/-- R71: the line written for an instruction assembles to the word of that instruction. Which digits and blanks a
line may have is the model's choice (log entry 13). -/
def Obligations.AssembledLineIsTheWord : Prop :=
  ∀ i : Instr, assembleLine (showInstr i) = some [encode i]

/-! ## The instructions (40_session.md to 43_table_init.md) -/

/-- R80: INIT completes in every state, sets ACC to 0xFFFF and changes nothing else; its word is 0x100 and no other
word is INIT. -/
def Obligations.InitSeedsTheAccumulator : Prop :=
  (∀ s : State, exec .init s = .next { s with acc := 0xFFFF#16 }) ∧
  encode .init = 0x100#12 ∧ (∀ w : CmdWord, decode w = .ok .init ↔ w = 0x100#12)

/-- R82, R83, R84: EMIT completes in every state, appends ACC[7:0] and then ACC[15:8] to OUT and changes nothing
else, so that a second EMIT appends the same two bytes; the number is second * 256 + first; its word is 0x400. -/
def Obligations.EmitAppendsLowByteThenHighByte : Prop :=
  (∀ s : State, exec .emit s =
    .next { s with out := s.out ++ [s.acc.extractLsb' 0 8, s.acc.extractLsb' 8 8] }) ∧
  (∀ v : Word, (v.extractLsb' 8 8).toNat * 256 + (v.extractLsb' 0 8).toNat = v.toNat) ∧
  (∀ w : CmdWord, decode w = .ok .emit ↔ w = 0x400#12)

/-- R90: the index is ACC[7:0] XOR b; the upper half of the result is that of the entry, the lower half is ACC[15:8]
XOR that of the entry. -/
def Obligations.UpdTIsOneLookupAndTwoXors : Prop :=
  ∀ (tbl : Byte → Word) (a : Word) (b : Byte),
    tableIndex a b = a.extractLsb' 0 8 ^^^ b ∧
    updT tbl a b = (a >>> 8) ^^^ tbl (((a ^^^ b.setWidth 16) &&& 0xFF#16).setWidth 8) ∧
    (updT tbl a b).extractLsb' 8 8 = (tbl (a.extractLsb' 0 8 ^^^ b)).extractLsb' 8 8 ∧
    (updT tbl a b).extractLsb' 0 8 = a.extractLsb' 8 8 ^^^ (tbl (a.extractLsb' 0 8 ^^^ b)).extractLsb' 0 8

/-- R91: UPDT completes on a VERIFIED table, from the entry at ACC[7:0] XOR b, writing ACC alone; on an EMPTY or
LOADED table it raises TableNotReady and writes CAUSE and FIDX alone; its word is 0x200 OR b. A VERIFIED table that
satisfies the table invariant has the entry, and the new ACC is then UpdT of the correct table. -/
def Obligations.UpdtUsesAVerifiedTableOnly : Prop :=
  (∀ (s : State) (b : Byte) (entry : Word), s.tstate = .verified →
    s.table.read (s.acc.extractLsb' 0 8 ^^^ b) = some entry →
    exec (.updt b) s = .next { s with acc := (s.acc >>> 8) ^^^ entry }) ∧
  (∀ (s : State) (b : Byte), s.TableInv → s.tstate = .verified →
    exec (.updt b) s = .next { s with acc := updT tableEntry s.acc b }) ∧
  (∀ (s : State) (b : Byte), s.tstate ≠ .verified →
    exec (.updt b) s = .next { s with cause := .tableNotReady, fidx := 0#8 }) ∧
  (∀ (w : CmdWord) (b : Byte), decode w = .ok (.updt b) ↔ w = 0x200#12 ||| b.setWidth 12)

/-- The model's stop (log entry 3): UPDT on a VERIFIED table that lacks the entry it reads, and TVER on a LOADED
table whose lowest entry that is not right is absent, stop by name; and every command that does not complete is one of
these two. -/
def Obligations.OnlyAnUnwrittenEntryStops : Prop :=
  (∀ (s : State) (b : Byte), s.tstate = .verified → s.table.read (s.acc.extractLsb' 0 8 ^^^ b) = none →
    exec (.updt b) s = .fault .unwrittenEntry) ∧
  (∀ (s : State) (i : Byte), s.tstate = .loaded → s.table.LowestWrong i → s.table.read i = none →
    exec .tver s = .fault .unwrittenEntry) ∧
  (∀ (s : State) (i : Instr), (∃ t, exec i s = .next t) ∨
    (∃ b, i = .updt b ∧ s.tstate = .verified ∧ s.table.read (s.acc.extractLsb' 0 8 ^^^ b) = none) ∨
    (i = .tver ∧ s.tstate = .loaded ∧ ∃ k, s.table.LowestWrong k ∧ s.table.read k = none))

/-- R92: with the correct table the table-driven step and the bitwise step agree for every accumulator and byte. -/
def Obligations.TableStepEqualsBitwiseStep : Prop :=
  ∀ (a : Word) (b : Byte), updT tableEntry a b = updB a b

/-- R100: Step1 bit by bit, and linear over XOR. -/
def Obligations.Step1BitsAndLinearity : Prop :=
  (∀ a : Word, step1 a = if a.getLsbD 0 then (a >>> 1) ^^^ 0xA001#16 else a >>> 1) ∧
  (∀ a : Word, (step1 a).getLsbD 15 = a.getLsbD 0 ∧ (step1 a).getLsbD 14 = a.getLsbD 15 ∧
    (step1 a).getLsbD 13 = (a.getLsbD 14 ^^ a.getLsbD 0) ∧
    (∀ k, 1 ≤ k → k ≤ 12 → (step1 a).getLsbD k = a.getLsbD (k + 1)) ∧
    (step1 a).getLsbD 0 = (a.getLsbD 1 ^^ a.getLsbD 0)) ∧
  (∀ x y : Word, step1 (x ^^^ y) = step1 x ^^^ step1 y) ∧ step1 0#16 = 0#16

/-- R101, R105: Reduce8 is Step1 eight times, the last stage of the pipeline; it is linear over XOR, and shifts by
eight where the low byte is zero. -/
def Obligations.Reduce8IsEightLinearSteps : Prop :=
  (∀ a : Word, reduce8 a = step1^[8] a ∧ reduce8 a = stage a 8) ∧
  (∀ x y : Word, reduce8 (x ^^^ y) = reduce8 x ^^^ reduce8 y) ∧ reduce8 0#16 = 0#16 ∧
  (∀ a : Word, a.extractLsb' 0 8 = 0#8 → reduce8 a = a >>> 8)

/-- R102: a table entry is the reduction of its index, the bitwise step from accumulator 0, with the rule's four
example values. -/
def Obligations.TableEntryIsTheStepFromZero : Prop :=
  (∀ i : Byte, tableEntry i = reduce8 (i.setWidth 16) ∧ tableEntry i = updB 0x0000#16 i) ∧
  tableEntry 0x00#8 = 0x0000#16 ∧ tableEntry 0x01#8 = 0xC0C1#16 ∧ tableEntry 0x80#8 = 0xA001#16 ∧
  tableEntry 0xFF#8 = 0x4040#16

/-- R104: UPDB completes in every state, in every table state alike, and writes ACC alone, with the rule's corner
cases; its word is 0x300 OR b. -/
def Obligations.UpdbRunsInEveryTableState : Prop :=
  (∀ (s : State) (b : Byte), exec (.updb b) s = .next { s with acc := reduce8 (s.acc ^^^ b.setWidth 16) }) ∧
  (∀ (w : CmdWord) (b : Byte), decode w = .ok (.updb b) ↔ w = 0x300#12 ||| b.setWidth 12) ∧
  (∀ (s : State) (b : Byte), s.acc.extractLsb' 0 8 = b → exec (.updb b) s = .next { s with acc := s.acc >>> 8 }) ∧
  updB 0xFFFF#16 0x00#8 = 0x40BF#16 ∧ updB 0xFFFF#16 0xFF#8 = 0x00FF#16 ∧ updB 0x0000#16 0x00#8 = 0x0000#16 ∧
  updB 0xFFFF#16 0x01#8 = 0x807E#16

/-- R112, R130: TGEN completes in every state. In state EMPTY all 256 entries become the correct ones, the value of
the bitwise step on the index from accumulator 0, the table keeps its canonical form (the model's representation, log
entry 2) and is LOADED, and nothing else changes; in state LOADED or VERIFIED nothing changes at all. "Every state"
takes in the halted ones, since exec does not look at CAUSE (log entry 7). Its word is 0x500. -/
def Obligations.TgenFillsTheTableOnce : Prop :=
  (∀ s : State, s.tstate = .empty → ∃ m : Memory, exec .tgen s = .next { s with table := m, tstate := .loaded } ∧
    (∀ i : Byte, m.read i = some (reduce8 (i.setWidth 16)) ∧ m.read i = some (fold 0x0000#16 [i])) ∧
    (s.table.wf = true → m.wf = true)) ∧
  (∀ s : State, s.tstate ≠ .empty → exec .tgen s = .next s) ∧
  (∀ w : CmdWord, decode w = .ok .tgen ↔ w = 0x500#12)

/-- R113: TVER in state EMPTY raises TableNotReady; in state LOADED it verifies a correct table and raises
TableMismatch with the lowest wrong index on any other; in state VERIFIED it does nothing. Its word is 0x600. -/
def Obligations.TverVerifiesOrHalts : Prop :=
  (∀ s : State, s.tstate = .empty → exec .tver s = .next { s with cause := .tableNotReady, fidx := 0#8 }) ∧
  (∀ s : State, s.tstate = .loaded → s.table.Correct → exec .tver s = .next { s with tstate := .verified }) ∧
  (∀ (s : State) (i : Byte) (v : Word), s.tstate = .loaded → s.table.read i = some v → v ≠ tableEntry i →
    (∀ j : Byte, j.toNat < i.toNat → s.table.read j = some (tableEntry j)) →
    exec .tver s = .next { s with cause := .tableMismatch, fidx := i }) ∧
  (∀ s : State, s.tstate = .verified → exec .tver s = .next s) ∧
  (∀ w : CmdWord, decode w = .ok .tver ↔ w = 0x600#12)

/-- R114: the 256 correct entries, eight per row, each row with the index of its first entry, as the rule lists
them. -/
def Obligations.TableValuesAsListed : Prop :=
  ((List.range 32).map fun r =>
      (8 * r, (List.range 8).map fun c => tableEntry (BitVec.ofNat 8 (8 * r + c)))) =
    [(0x00, [0x0000#16, 0xC0C1#16, 0xC181#16, 0x0140#16, 0xC301#16, 0x03C0#16, 0x0280#16, 0xC241#16]),
     (0x08, [0xC601#16, 0x06C0#16, 0x0780#16, 0xC741#16, 0x0500#16, 0xC5C1#16, 0xC481#16, 0x0440#16]),
     (0x10, [0xCC01#16, 0x0CC0#16, 0x0D80#16, 0xCD41#16, 0x0F00#16, 0xCFC1#16, 0xCE81#16, 0x0E40#16]),
     (0x18, [0x0A00#16, 0xCAC1#16, 0xCB81#16, 0x0B40#16, 0xC901#16, 0x09C0#16, 0x0880#16, 0xC841#16]),
     (0x20, [0xD801#16, 0x18C0#16, 0x1980#16, 0xD941#16, 0x1B00#16, 0xDBC1#16, 0xDA81#16, 0x1A40#16]),
     (0x28, [0x1E00#16, 0xDEC1#16, 0xDF81#16, 0x1F40#16, 0xDD01#16, 0x1DC0#16, 0x1C80#16, 0xDC41#16]),
     (0x30, [0x1400#16, 0xD4C1#16, 0xD581#16, 0x1540#16, 0xD701#16, 0x17C0#16, 0x1680#16, 0xD641#16]),
     (0x38, [0xD201#16, 0x12C0#16, 0x1380#16, 0xD341#16, 0x1100#16, 0xD1C1#16, 0xD081#16, 0x1040#16])] ++
    [(0x40, [0xF001#16, 0x30C0#16, 0x3180#16, 0xF141#16, 0x3300#16, 0xF3C1#16, 0xF281#16, 0x3240#16]),
     (0x48, [0x3600#16, 0xF6C1#16, 0xF781#16, 0x3740#16, 0xF501#16, 0x35C0#16, 0x3480#16, 0xF441#16]),
     (0x50, [0x3C00#16, 0xFCC1#16, 0xFD81#16, 0x3D40#16, 0xFF01#16, 0x3FC0#16, 0x3E80#16, 0xFE41#16]),
     (0x58, [0xFA01#16, 0x3AC0#16, 0x3B80#16, 0xFB41#16, 0x3900#16, 0xF9C1#16, 0xF881#16, 0x3840#16]),
     (0x60, [0x2800#16, 0xE8C1#16, 0xE981#16, 0x2940#16, 0xEB01#16, 0x2BC0#16, 0x2A80#16, 0xEA41#16]),
     (0x68, [0xEE01#16, 0x2EC0#16, 0x2F80#16, 0xEF41#16, 0x2D00#16, 0xEDC1#16, 0xEC81#16, 0x2C40#16]),
     (0x70, [0xE401#16, 0x24C0#16, 0x2580#16, 0xE541#16, 0x2700#16, 0xE7C1#16, 0xE681#16, 0x2640#16]),
     (0x78, [0x2200#16, 0xE2C1#16, 0xE381#16, 0x2340#16, 0xE101#16, 0x21C0#16, 0x2080#16, 0xE041#16])] ++
    [(0x80, [0xA001#16, 0x60C0#16, 0x6180#16, 0xA141#16, 0x6300#16, 0xA3C1#16, 0xA281#16, 0x6240#16]),
     (0x88, [0x6600#16, 0xA6C1#16, 0xA781#16, 0x6740#16, 0xA501#16, 0x65C0#16, 0x6480#16, 0xA441#16]),
     (0x90, [0x6C00#16, 0xACC1#16, 0xAD81#16, 0x6D40#16, 0xAF01#16, 0x6FC0#16, 0x6E80#16, 0xAE41#16]),
     (0x98, [0xAA01#16, 0x6AC0#16, 0x6B80#16, 0xAB41#16, 0x6900#16, 0xA9C1#16, 0xA881#16, 0x6840#16]),
     (0xA0, [0x7800#16, 0xB8C1#16, 0xB981#16, 0x7940#16, 0xBB01#16, 0x7BC0#16, 0x7A80#16, 0xBA41#16]),
     (0xA8, [0xBE01#16, 0x7EC0#16, 0x7F80#16, 0xBF41#16, 0x7D00#16, 0xBDC1#16, 0xBC81#16, 0x7C40#16]),
     (0xB0, [0xB401#16, 0x74C0#16, 0x7580#16, 0xB541#16, 0x7700#16, 0xB7C1#16, 0xB681#16, 0x7640#16]),
     (0xB8, [0x7200#16, 0xB2C1#16, 0xB381#16, 0x7340#16, 0xB101#16, 0x71C0#16, 0x7080#16, 0xB041#16])] ++
    [(0xC0, [0x5000#16, 0x90C1#16, 0x9181#16, 0x5140#16, 0x9301#16, 0x53C0#16, 0x5280#16, 0x9241#16]),
     (0xC8, [0x9601#16, 0x56C0#16, 0x5780#16, 0x9741#16, 0x5500#16, 0x95C1#16, 0x9481#16, 0x5440#16]),
     (0xD0, [0x9C01#16, 0x5CC0#16, 0x5D80#16, 0x9D41#16, 0x5F00#16, 0x9FC1#16, 0x9E81#16, 0x5E40#16]),
     (0xD8, [0x5A00#16, 0x9AC1#16, 0x9B81#16, 0x5B40#16, 0x9901#16, 0x59C0#16, 0x5880#16, 0x9841#16]),
     (0xE0, [0x8801#16, 0x48C0#16, 0x4980#16, 0x8941#16, 0x4B00#16, 0x8BC1#16, 0x8A81#16, 0x4A40#16]),
     (0xE8, [0x4E00#16, 0x8EC1#16, 0x8F81#16, 0x4F40#16, 0x8D01#16, 0x4DC0#16, 0x4C80#16, 0x8C41#16]),
     (0xF0, [0x4400#16, 0x84C1#16, 0x8581#16, 0x4540#16, 0x8701#16, 0x47C0#16, 0x4680#16, 0x8641#16]),
     (0xF8, [0x8201#16, 0x42C0#16, 0x4380#16, 0x8341#16, 0x4100#16, 0x81C1#16, 0x8081#16, 0x4040#16])]

/-- R33: what INIT, UPDT, UPDB and EMIT leave unchanged. None of them stores to the table: every index, of the table
space or not, reads as before. -/
def Obligations.FrameOfSessionAndUpdateCommands : Prop :=
  (∀ (s t : State) (i : Instr), (i = .init ∨ ∃ b, i = .updb b) → exec i s = .next t →
    (∀ k : Nat, t.table.readCell k = s.table.readCell k) ∧ t.tstate = s.tstate ∧ t.cause = s.cause ∧
    t.fidx = s.fidx ∧ t.out = s.out ∧ t.build = s.build ∧ t.host = s.host) ∧
  (∀ (s t : State) (b : Byte), exec (.updt b) s = .next t →
    (∀ k : Nat, t.table.readCell k = s.table.readCell k) ∧ t.tstate = s.tstate ∧ t.out = s.out ∧
    t.build = s.build ∧ t.host = s.host ∧
    ((s.tstate = .verified ∧ t.cause = s.cause ∧ t.fidx = s.fidx) ∨ (s.tstate ≠ .verified ∧ t.acc = s.acc))) ∧
  (∀ s t : State, exec .emit s = .next t →
    (∀ k : Nat, t.table.readCell k = s.table.readCell k) ∧ t.acc = s.acc ∧ t.tstate = s.tstate ∧
    t.cause = s.cause ∧ t.fidx = s.fidx ∧ s.out <+: t.out ∧ t.out.length = s.out.length + 2 ∧
    t.build = s.build ∧ t.host = s.host)

/-- R33: what TGEN and TVER leave unchanged. TGEN stores to the indices 0..255 and only in state EMPTY; TVER stores
nothing. -/
def Obligations.FrameOfTableCommands : Prop :=
  (∀ s t : State, exec .tgen s = .next t →
    (∀ k : Nat, (s.tstate ≠ .empty ∨ 256 ≤ k) → t.table.readCell k = s.table.readCell k) ∧
    (s.tstate ≠ .empty → t.tstate = s.tstate) ∧
    t.acc = s.acc ∧ t.cause = s.cause ∧ t.fidx = s.fidx ∧ t.out = s.out ∧ t.build = s.build ∧ t.host = s.host) ∧
  (∀ s t : State, exec .tver s = .next t →
    (∀ k : Nat, t.table.readCell k = s.table.readCell k) ∧ t.acc = s.acc ∧ t.out = s.out ∧ t.build = s.build ∧
    t.host = s.host ∧
    (t.tstate = s.tstate ∨ (s.tstate = .loaded ∧ t.tstate = .verified)) ∧
    ((t.cause = s.cause ∧ t.fidx = s.fidx) ∨ (t.cause ≠ .none ∧ t.tstate = s.tstate)))

/-! ## Faults (60_exceptions.md) -/

/-- R140, R141, R142, R143: exactly when an accepted word raises each fault, and what it records. IllegalCmd: the
word is no command. TableNotReady: UPDT on a table that is not VERIFIED, TVER on an EMPTY one. TableMismatch: TVER on
a LOADED table with a wrong entry, recording the lowest. -/
def Obligations.FaultsAreRaisedExactlyWhenStated : Prop :=
  ∀ (s t : State) (w : CmdWord) (rest : List HostAction), s.TableInv → s.cause = .none →
    s.host = .command w :: rest → step s = .next t →
    (t.cause = .illegalCmd ↔ ∀ i, decode w ≠ .ok i) ∧
    (t.cause = .tableNotReady ↔
      ((∃ b, decode w = .ok (.updt b)) ∧ s.tstate ≠ .verified) ∨ (decode w = .ok .tver ∧ s.tstate = .empty)) ∧
    (t.cause = .tableMismatch ↔ decode w = .ok .tver ∧ s.tstate = .loaded ∧ ¬ s.table.Correct) ∧
    (t.cause = .tableMismatch → s.table.LowestWrong t.fidx) ∧
    (t.cause = .illegalCmd ∨ t.cause = .tableNotReady → t.fidx = 0#8)

/-- R146: a step that raises a fault writes CAUSE and FIDX and nothing else. -/
def Obligations.FaultEntryWritesCauseAndFidxOnly : Prop :=
  ∀ s t : State, s.cause = .none → step s = .next t → t.cause ≠ .none →
    ∃ (w : CmdWord) (rest : List HostAction), s.host = .command w :: rest ∧
      t = { s with host := rest, cause := t.cause, fidx := t.fidx } ∧
      (t.cause ≠ .tableMismatch → t.fidx = 0#8)

/-- R147: at the ports a halted engine holds cmd_ready and out_valid at 0, and an edge without reset changes no field
of its state and takes no byte. -/
def Obligations.HaltedEngineIsFrozenAtThePorts : Prop :=
  ∀ (p : PortState) (i : PinsIn), p.Inv → p.core.cause ≠ .none → i.rst = false →
    p.cmdReady i.rst = false ∧ p.outValid i.rst = false ∧ p.accepts i = none ∧
    ∃ p', p.edge i = .next p' ∧ p'.core = p.core ∧ p'.heard = p.heard

/-- R147, R148 at the transaction level (log entry 6): a halted engine steps only by the host's next reset, the words
before it being never accepted; with no reset to come it has no step. -/
def Obligations.HaltedEngineStepsByResetOnly : Prop :=
  (∀ s : State, s.cause ≠ .none → (∀ a ∈ s.host, a ≠ .reset) → step s = .fault .halted) ∧
  (∀ (s : State) (ws : List CmdWord) (rest : List HostAction), s.cause ≠ .none →
    s.host = ws.map .command ++ .reset :: rest → step s = .next (State.resetOf s.build rest))

/-- R115: in a GENERATED build no step leads to TableMismatch; in an EMBEDDED build a step that does finds the ROM
wrong at the index in FIDX, so that no step of a build with a correct ROM leads there; and where the ROM is wrong
somewhere the first TVER after reset does. -/
def Obligations.MismatchNeedsADefectiveRom : Prop :=
  (∀ s t : State, s.TableInv → s.build = .generated → s.cause ≠ .tableMismatch → step s = .next t →
    t.cause ≠ .tableMismatch) ∧
  (∀ (s t : State) (rom : Vector Word 256), s.TableInv → s.build = .embedded rom → s.cause ≠ .tableMismatch →
    step s = .next t → t.cause = .tableMismatch → rom[t.fidx.toNat]'t.fidx.isLt ≠ tableEntry t.fidx) ∧
  (∀ (rom : Vector Word 256) (i : Byte), rom[i.toNat]'i.isLt ≠ tableEntry i →
    ∃ t, step (State.resetOf (.embedded rom) [.command 0x600#12]) = .next t ∧ t.cause = .tableMismatch)

/-- R148, R112, R113: the defect of a ROM is in the build. From every state, a reset and then TGEN and TVER end in
TableMismatch at the lowest wrong index of the ROM. -/
def Obligations.DefectiveRomFaultsAfterEveryReset : Prop :=
  ∀ (s : State) (rom : Vector Word 256) (i : Byte) (rest : List HostAction), s.build = .embedded rom →
    rom[i.toNat]'i.isLt ≠ tableEntry i →
    (∀ j : Byte, j.toNat < i.toNat → rom[j.toNat]'j.isLt = tableEntry j) →
    s.host = .reset :: .command 0x500#12 :: .command 0x600#12 :: rest →
    runSteps 3 s =
      .next { State.resetOf s.build rest with cause := .tableMismatch, fidx := i }

/-! ## Invariants -/

/-- The invariant holds of the reset state of every build. -/
def Obligations.ResetStateHasTheInvariant : Prop :=
  ∀ (build : Build) (host : List HostAction), (State.resetOf build host).Inv

/-- R22, R23, R25, R26: the invariant is kept by every step, from every state that has it: the table is in canonical
form, holds the correct values whenever VERIFIED and, in a GENERATED build, whenever it is not EMPTY, holds TABLE_ROM
in an EMBEDDED build; FIDX is 0 unless the cause is TableMismatch and then is the lowest wrong index; OUT has an even
number of bytes. -/
def Obligations.EveryStepKeepsTheInvariant : Prop :=
  ∀ s t : State, s.Inv → step s = .next t → t.Inv

/-- R30, R173: from every state with the table invariant an engine that is not halted has a next state, whatever the
host does: no unspecified entry is read, and nothing is refused. -/
def Obligations.RunningEngineAlwaysHasANextState : Prop :=
  ∀ s : State, s.TableInv → s.halted = false → ∃ t, step s = .next t

/-- R6: no step changes the build. -/
def Obligations.NoStepChangesTheBuild : Prop :=
  ∀ s t : State, step s = .next t → t.build = s.build

/-- R30 (b), R31: in state EMPTY nothing depends on the contents of T. Two engines that differ in T alone answer every
command alike, and a table that is then no longer EMPTY reads alike. -/
def Obligations.UnspecifiedTableContentsAreNeverObserved : Prop :=
  ∀ (s : State) (m : Memory) (i : Instr), s.tstate = .empty →
    ∃ t t', exec i s = .next t ∧ exec i { s with table := m } = .next t' ∧
      t' = { t with table := t'.table } ∧ (t.tstate ≠ .empty → ∀ k : Byte, t'.table.read k = t.table.read k)

/-! ## Whole computations (44_transactions_and_laws.md) -/

/-- R121: CRC16.B completes from every state that is not halted, in every table state; its words, and its effect. -/
def Obligations.BitwiseComputationGivesTheCrc : Prop :=
  ∀ data : List Byte,
    wordsOf (crc16B data) = 0x100#12 :: (data.map (fun d => 0x300#12 ||| d.setWidth 12) ++ [0x400#12]) ∧
    ∀ s : State, s.cause = .none →
      runCommands (crc16B data) s = .next { s with acc := crc data, out := s.out ++ wire (crc data), host := [] }

/-- R120: CRC16.T, its words, its effect on a VERIFIED table, its effect for the empty sequence in every table state,
and TableNotReady at its first UPDT otherwise. -/
def Obligations.TableComputationGivesTheCrc : Prop :=
  ∀ data : List Byte,
    wordsOf (crc16T data) = 0x100#12 :: (data.map (fun d => 0x200#12 ||| d.setWidth 12) ++ [0x400#12]) ∧
    (∀ s : State, s.TableInv → s.cause = .none → (s.tstate = .verified ∨ data = []) →
      runCommands (crc16T data) s = .next { s with acc := crc data, out := s.out ++ wire (crc data), host := [] }) ∧
    (∀ s : State, s.cause = .none → s.tstate ≠ .verified → data ≠ [] →
      ∃ t, HaltedAfter 2 (wordsOf (crc16T data)) s t ∧ t.cause = .tableNotReady ∧ t.acc = 0xFFFF#16 ∧ t.out = s.out)

/-- R126: from every state with a VERIFIED table any two mixtures of UPDT and UPDB over the same bytes leave the same
state, the accumulator being Fold of the bytes; CRC16.T and CRC16.B are two such. -/
def Obligations.StrategiesAgreeOnEverySequence : Prop :=
  (∀ (s : State) (data : List Byte) (mix : List Bool), s.TableInv → s.tstate = .verified → s.cause = .none →
    mix.length = data.length →
    runCommands (List.zipWith (fun useTable b => if useTable then .updt b else .updb b) mix data) s =
      .next { s with acc := fold s.acc data, host := [] }) ∧
  (∀ (s : State) (data : List Byte), s.TableInv → s.tstate = .verified → s.cause = .none →
    ∃ t, runCommands (crc16T data) s = .next t ∧ runCommands (crc16B data) s = .next t)

/-- R122, R166: after a reset, BOOT that does not fault leaves the table VERIFIED. It never faults in a GENERATED
build, nor in an EMBEDDED build with a correct ROM; TGEN then changes nothing. -/
def Obligations.BootVerifiesTheTable : Prop :=
  wordsOf boot = [0x500#12, 0x600#12] ∧
  (∀ (build : Build) (t : State), runCommands boot (State.resetOf build []) = .next t → t.cause = .none →
    t.tstate = .verified ∧ t.table.Correct) ∧
  (∃ t, runCommands boot (State.resetOf .generated []) = .next t ∧ t.cause = .none) ∧
  (∀ rom : Vector Word 256, (∀ i : Byte, rom[i.toNat]'i.isLt = tableEntry i) →
    runCommands boot (State.resetOf (.embedded rom) []) =
      .next { State.resetOf (.embedded rom) [] with tstate := .verified })

/-- R127: the empty input. -/
def Obligations.EmptyInputEmitsTheSeed : Prop :=
  crc [] = 0xFFFF#16 ∧ wire 0xFFFF#16 = [0xFF#8, 0xFF#8] ∧
  (∀ s : State, s.cause = .none →
    runWords [0x100#12, 0x400#12] s = .next { s with acc := 0xFFFF#16, out := s.out ++ [0xFF#8, 0xFF#8], host := [] })

/-- R128: the bytes a computation appends depend on the data alone, whatever the two states are that it runs from. -/
def Obligations.ResultDependsOnTheDataAlone : Prop :=
  ∀ (data : List Byte) (s s' : State), s.cause = .none → s'.cause = .none →
    (∃ bytes t t', runCommands (crc16B data) s = .next t ∧ runCommands (crc16B data) s' = .next t' ∧
      t.out = s.out ++ bytes ∧ t'.out = s'.out ++ bytes) ∧
    (s.TableInv → s'.TableInv → s.tstate = .verified → s'.tstate = .verified →
      ∃ bytes t t', runCommands (crc16T data) s = .next t ∧ runCommands (crc16T data) s' = .next t' ∧
        t.out = s.out ++ bytes ∧ t'.out = s'.out ++ bytes)

/-- R129, R83: Fold over a concatenation, and its form on the hardware: an EMIT in mid-sequence reports the prefix
and the computation goes on unharmed. -/
def Obligations.MidSequenceEmitReportsThePrefix : Prop :=
  (∀ (a : Word) (x y : List Byte), fold a (x ++ y) = fold (fold a x) y) ∧
  (∀ (data : List Byte) (b : Byte), fold 0xFFFF#16 (data ++ [b]) = updB (fold 0xFFFF#16 data) b) ∧
  (∀ (s : State) (x y : List Byte), s.cause = .none →
    runCommands (updBs x ++ .emit :: updBs y) s =
      .next { s with acc := fold s.acc (x ++ y), out := s.out ++ wire (fold s.acc x), host := [] })

/-- R131: the known vector. -/
def Obligations.KnownModbusRequestVector : Prop :=
  crc [0x01#8, 0x03#8, 0x00#8, 0x00#8, 0x00#8, 0x06#8] = 0xC8C5#16 ∧
  wire (crc [0x01#8, 0x03#8, 0x00#8, 0x00#8, 0x00#8, 0x06#8]) = [0xC5#8, 0xC8#8]

/-- R132: a sequence that carries its own result, low byte first, has residue 0; with the two bytes swapped it does
not in general. -/
def Obligations.SequenceWithItsResultHasResidueZero : Prop :=
  (∀ data : List Byte, crc (data ++ wire (crc data)) = 0x0000#16) ∧
  (∃ data : List Byte, crc (data ++ (wire (crc data)).reverse) ≠ 0x0000#16)

/-- R176: the run of a finite list of words from a reset state ends in exactly one of two ways, completed or halted,
and in one place. -/
def Obligations.EveryRunCompletesOrHalts : Prop :=
  ∀ (build : Build) (ws : List CmdWord),
    ((∃ t, Completed ws (State.resetOf build []) t) ∧ ∀ k t, ¬ HaltedAfter k ws (State.resetOf build []) t) ∨
    ((∀ t, ¬ Completed ws (State.resetOf build []) t) ∧
      ∃ k t, HaltedAfter k ws (State.resetOf build []) t ∧
        ∀ k' t', HaltedAfter k' ws (State.resetOf build []) t' → k' = k ∧ t' = t)

/-! ## The ports (10_state.md section 6) -/

/-- R34: a word is accepted exactly when rst is 0 and both cmd_valid and the pin cmd_ready are 1; it is then in
progress, and the engine's state is not yet changed (that the effect comes at a later edge is log entry 19). cmd_ready
is 0 while a command is in progress and while the engine is halted; without reset it is 1 in an engine that is ready and
not halted (that it then stays 1 is log entry 20). What is on the command port while cmd_ready is 0 has no effect of any
kind. -/
def Obligations.CommandHandshake : Prop :=
  (∀ (p : PortState) (i : PinsIn) (w : CmdWord),
    p.accepts i = some w ↔ i.rst = false ∧ i.cmdValid = true ∧ (p.pins i.rst).cmdReady = true ∧ i.cmd = w) ∧
  (∀ (p : PortState) (i : PinsIn) (w : CmdWord), p.accepts i = some w →
    ∃ p', p.edge i = .next p' ∧ p'.phase.inProgress = [w] ∧ p'.core = p.core ∧ p'.heard = p.heard) ∧
  (∀ (p : PortState) (rst : Bool),
    (p.phase.inProgress ≠ [] ∨ p.phase.waiting ≠ [] ∨ p.core.cause ≠ .none) → (p.pins rst).cmdReady = false) ∧
  (∀ p : PortState, p.core.cause = .none → p.phase = .ready → (p.pins false).cmdReady = true) ∧
  (∀ (p : PortState) (i i' : PinsIn), (p.pins i.rst).cmdReady = false → i'.rst = i.rst →
    i'.outReady = i.outReady → p.edge i' = p.edge i)

/-- R35: a byte is taken exactly when rst is 0 and both out_valid and out_ready are 1, and it is the one on out_data;
bytes are taken in order, none dropped or repeated; a byte offered and not taken stays offered (log entry 21); bytes that wait,
offered or not, go on waiting at an edge without reset at which none is taken; none is offered when none waits; while one waits no command is accepted; at most two wait. -/
def Obligations.OutputHandshake : Prop :=
  (∀ (p : PortState) (i : PinsIn) (b : Byte),
    p.takes i = some b ↔
      i.rst = false ∧ i.outReady = true ∧ (p.pins i.rst).outValid = true ∧ (p.pins i.rst).outData = b) ∧
  (∀ (p p' : PortState) (i : PinsIn), p.Inv → p.edge i = .next p' →
    p'.heard = p.heard ++ (p.takes i).toList ∧
    (∀ b, p.takes i = some b → p.phase.waiting = b :: p'.phase.waiting) ∧
    (i.rst = false → p.outValid i.rst = true → i.outReady = false → p'.phase = p.phase) ∧
    (i.rst = false → p.takes i = none → p.phase.waiting ≠ [] → p'.phase.waiting = p.phase.waiting) ∧
    (p.phase.waiting = [] → p.outValid i.rst = false) ∧
    (p.phase.waiting ≠ [] → p.cmdReady i.rst = false) ∧ p.phase.waiting.length ≤ 2)

/-- R35, R147: the invariant of the ports holds after reset. -/
def Obligations.PortsAfterResetHaveTheInvariant : Prop :=
  ∀ (build : Build) (edges : Nat), (PortState.resetOf build edges).Inv

/-- R35, R147, R160: the invariant of the ports is kept at every edge, whatever the host does with the pins: the
bytes taken since the last reset, followed by the bytes that wait, are OUT; none waits at a halt; and the invariant of
the engine. -/
def Obligations.EveryEdgeKeepsThePortInvariant : Prop :=
  ∀ (p p' : PortState) (i : PinsIn), p.Inv → p.edge i = .next p' → p'.Inv

/-- R8, R34: what happens at the ports is a run of the transaction level. After any edges from reset the engine's
state is that of a run of steps over some commands and resets; the commands among them are accepted words in the order
accepted; and where no reset fell, they are all of them, but for the one in progress. After a reset at the ports of
any engine, whatever it was doing, the correspondence is exact: the engine's state is that of a run from the reset
state over all the words accepted since, but for the one in progress. -/
def Obligations.PortBehaviourIsARunOfSteps : Prop :=
  (∀ (build : Build) (edges : Nat) (ins : List PinsIn) (p : PortState),
    PortState.run ins (PortState.resetOf build edges) = .next p →
    ∃ acts : List HostAction,
      runSteps acts.length (State.resetOf build acts) = .next p.core ∧
      (commandWords acts).Sublist (PortState.acceptedWords ins (PortState.resetOf build edges)) ∧
      ((∀ i ∈ ins, i.rst = false) →
        acts = (commandWords acts).map .command ∧
        PortState.acceptedWords ins (PortState.resetOf build edges) = commandWords acts ++ p.phase.inProgress)) ∧
  (∀ (q p : PortState) (i : PinsIn) (ins : List PinsIn), i.rst = true → (∀ j ∈ ins, j.rst = false) →
    PortState.run (i :: ins) q = .next p →
    ∃ ws : List CmdWord,
      runSteps ws.length (State.resetOf q.core.build (ws.map .command ++ q.core.host)) = .next p.core ∧
      PortState.acceptedWords (i :: ins) q = ws ++ p.phase.inProgress)

/-- R173: an engine whose output is taken and that is not reset has, after finitely many edges, no command in progress
and no byte waiting, and is halted or shows cmd_ready = 1. -/
def Obligations.EveryCommandEndsAfterFinitelyManyEdges : Prop :=
  ∀ p : PortState, p.Inv → ∃ n : Nat, ∀ ins : List PinsIn, ins.length = n →
    (∀ i ∈ ins, i.rst = false ∧ i.outReady = true) →
    ∃ k, k ≤ n ∧ ∃ p', PortState.run (ins.take k) p = .next p' ∧ p'.phase = .ready ∧
      (p'.core.halted = true ∨ (p'.pins false).cmdReady = true)

/-- R153 (log entry 5 for the transaction level): an idle engine keeps all its state. A step of a running engine to
which nothing is offered leads to the same state; at the ports an engine that is ready and accepts nothing at an edge
without reset is still ready after it (log entry 20), its state and the bytes taken as before. -/
def Obligations.IdleEngineKeepsItsState : Prop :=
  (∀ s : State, s.cause = .none → s.host = [] → step s = .next s) ∧
  (∀ (p : PortState) (i : PinsIn), i.rst = false → p.phase = .ready → p.accepts i = none →
    ∃ p', p.edge i = .next p' ∧ p'.core = p.core ∧ p'.phase = .ready ∧ p'.heard = p.heard)
end

