-- ==== Sys2Proof/Laws/Memory.lean ====
section
/-! SUPPORT. The laws of the table space: read after write, the canonical form, filling, verifying, and a ROM as
written entries. Each shared operation has one lemma that says all it does. -/

namespace Sys2Proof.Machine

/-- All `writeCell` does to `readCell`, at every index. -/
theorem Memory.readCell_writeCell (m : Memory) (i k : Nat) (v : Word) :
    (m.writeCell i v).readCell k = if k = i then some v else m.readCell k := by
  induction m with
  | nil => simp [Memory.writeCell, Memory.readCell]
  | cons c rest ih =>
    obtain ⟨j, u⟩ := c
    simp only [Memory.writeCell]
    split
    · simp [Memory.readCell]
    · split
      · next h => subst h; by_cases hk : k = i <;> simp [Memory.readCell, hk]
      · simp only [Memory.readCell, ih]
        by_cases hk : k = i
        · subst hk; simp_all
        · simp [hk]

/-- All `write` does to `read`, at every index (R50). -/
@[simp] theorem Memory.read_write (m : Memory) (i k : Byte) (v : Word) :
    (m.write i v).read k = if k = i then some v else m.read k := by
  simp [Memory.read, Memory.write, Memory.readCell_writeCell, BitVec.toNat_inj]

@[simp] theorem Memory.read_nil (i : Byte) : Memory.read [] i = none := rfl

theorem Memory.risingFrom_mono (m : Memory) {lo lo' : Nat} (h : lo' ≤ lo) (hm : m.risingFrom lo = true) :
    m.risingFrom lo' = true := by
  cases m with
  | nil => rfl
  | cons c rest =>
    simp only [Memory.risingFrom, Bool.and_eq_true, decide_eq_true_eq] at *
    exact ⟨⟨by omega, hm.1.2⟩, hm.2⟩

theorem Memory.risingFrom_writeCell (m : Memory) (i lo : Nat) (v : Word) (hlo : lo ≤ i) (hi : i < 256)
    (hm : m.risingFrom lo = true) : (m.writeCell i v).risingFrom lo = true := by
  induction m generalizing lo with
  | nil => simp [Memory.writeCell, Memory.risingFrom, hlo, hi]
  | cons c rest ih =>
    obtain ⟨j, u⟩ := c
    simp only [Memory.risingFrom, Bool.and_eq_true, decide_eq_true_eq] at hm
    simp only [Memory.writeCell]
    split
    · simp only [Memory.risingFrom, Bool.and_eq_true, decide_eq_true_eq]
      exact ⟨⟨hlo, hi⟩, ⟨by omega, hm.1.2⟩, hm.2⟩
    · split
      · next h => subst h; simpa [Memory.risingFrom, hlo, hi] using hm.2
      · simp only [Memory.risingFrom, Bool.and_eq_true, decide_eq_true_eq]
        exact ⟨hm.1, ih (j + 1) (by omega) hm.2⟩

/-- Writing keeps the canonical form. -/
theorem Memory.wf_write {m : Memory} (h : m.wf = true) (i : Byte) (v : Word) : (m.write i v).wf = true :=
  Memory.risingFrom_writeCell m i.toNat 0 v (Nat.zero_le _) i.isLt h

/-- The empty table is in canonical form. -/
@[simp] theorem Memory.wf_nil : Memory.wf [] = true := rfl

/-- All `fill` does to `read`. -/
theorem Memory.read_fill (f : Byte → Word) (m : Memory) (is : List Byte) (k : Byte) :
    (m.fill f is).read k = if k ∈ is then some (f k) else m.read k := by
  induction is generalizing m with
  | nil => simp [Memory.fill]
  | cons i is ih =>
    have : (m.fill f (i :: is)) = (m.write i (f i)).fill f is := rfl
    rw [this, ih]
    by_cases hk : k ∈ is
    · simp [hk]
    · by_cases hi : k = i <;> simp [hk, hi]

/-- Filling keeps the canonical form. -/
theorem Memory.wf_fill {m : Memory} (h : m.wf = true) (f : Byte → Word) (is : List Byte) :
    (m.fill f is).wf = true := by
  induction is generalizing m with
  | nil => exact h
  | cons i is ih => exact ih (Memory.wf_write h i (f i))

/-- The loop over 0..255 reaches every index. -/
@[simp] theorem mem_tableIndices (i : Byte) : i ∈ tableIndices := by
  refine List.mem_map.mpr ⟨i.toNat, List.mem_range.mpr i.isLt, ?_⟩
  simp

/-- The loop over 0..255 runs upward. -/
theorem tableIndices_rising : tableIndices.Pairwise fun i j => i.toNat < j.toNat := by
  unfold tableIndices
  rw [List.pairwise_map]
  refine List.Pairwise.imp_of_mem ?_ (List.pairwise_lt_range (n := 256))
  intro a b ha hb hab
  rw [List.mem_range] at ha hb
  rw [BitVec.toNat_ofNat, BitVec.toNat_ofNat, Nat.mod_eq_of_lt ha, Nat.mod_eq_of_lt hb]
  exact hab

/-- All `verify` can answer: every listed entry is right; or the first that is not, with what stands there. -/
theorem Memory.verify_cases (m : Memory) (is : List Byte) :
    (m.verify is = .allMatch ∧ ∀ i ∈ is, m.read i = some (tableEntry i)) ∨
    ∃ pre i post, is = pre ++ i :: post ∧ (∀ j ∈ pre, m.read j = some (tableEntry j)) ∧
      ((m.verify is = .unwritten i ∧ m.read i = none) ∨
       ∃ v, m.verify is = .mismatch i ∧ m.read i = some v ∧ v ≠ tableEntry i) := by
  induction is with
  | nil => simp [Memory.verify]
  | cons i is ih =>
    cases hr : m.read i with
    | none => exact .inr ⟨[], i, is, rfl, by simp, .inl ⟨by simp [Memory.verify, hr], hr⟩⟩
    | some v =>
      by_cases hv : v = tableEntry i
      · have hs : m.verify (i :: is) = m.verify is := by simp [Memory.verify, hr, hv]
        rw [hs]
        rcases ih with ⟨h1, h2⟩ | ⟨pre, k, post, rfl, h2, h3⟩
        · exact .inl ⟨h1, by simp [hr, hv]; exact h2⟩
        · exact .inr ⟨i :: pre, k, post, rfl, by simp [hr, hv]; exact h2, h3⟩
      · exact .inr ⟨[], i, is, rfl, by simp, .inr ⟨v, by simp [Memory.verify, hr, hv], hr, hv⟩⟩

theorem Memory.readCell_zipIdx (l : List Word) (n k : Nat) :
    Memory.readCell ((l.zipIdx n).map fun p => (p.2, p.1)) (n + k) = l[k]? := by
  induction l generalizing n k with
  | nil => simp [Memory.readCell]
  | cons w l ih =>
    cases k with
    | zero => simp [Memory.readCell]
    | succ k =>
      have := ih (n + 1) k
      simp [Memory.readCell, ← this, Nat.add_assoc, Nat.add_comm 1 k]

/-- A ROM as written entries reads as the ROM (R6, R31). -/
@[simp] theorem Memory.read_ofRom (rom : Vector Word 256) (i : Byte) :
    (Memory.ofRom rom).read i = some (rom[i.toNat]'i.isLt) := by
  have h := Memory.readCell_zipIdx rom.toList 0 i.toNat
  have hi : i.toNat < 256 := i.isLt
  simp only [Nat.zero_add] at h
  simp [Memory.read, Memory.ofRom, h, hi]

theorem Memory.risingFrom_zipIdx (l : List Word) (n : Nat) (h : n + l.length ≤ 256) :
    Memory.risingFrom n ((l.zipIdx n).map fun p => (p.2, p.1)) = true := by
  induction l generalizing n with
  | nil => rfl
  | cons w l ih =>
    simp only [List.length_cons] at h
    simp [Memory.risingFrom]
    exact ⟨by omega, ih (n + 1) (by omega)⟩

/-- A ROM as written entries is in canonical form. -/
theorem Memory.wf_ofRom (rom : Vector Word 256) : (Memory.ofRom rom).wf = true :=
  Memory.risingFrom_zipIdx rom.toList 0 (by simp)

end Sys2Proof.Machine
end

