-- ==== Sys2Proof/Laws/State.lean ====
section
/-! SUPPORT. What each field of State reads after each update, so that no proof unfolds a record update; and the
small facts about the status fields. -/

namespace Sys2Proof.Machine

variable (s : State)

@[simp] theorem State.setAcc_acc (v : Word) : (s.setAcc v).acc = v := rfl
@[simp] theorem State.setAcc_table (v : Word) : (s.setAcc v).table = s.table := rfl
@[simp] theorem State.setAcc_tstate (v : Word) : (s.setAcc v).tstate = s.tstate := rfl
@[simp] theorem State.setAcc_cause (v : Word) : (s.setAcc v).cause = s.cause := rfl
@[simp] theorem State.setAcc_fidx (v : Word) : (s.setAcc v).fidx = s.fidx := rfl
@[simp] theorem State.setAcc_out (v : Word) : (s.setAcc v).out = s.out := rfl
@[simp] theorem State.setAcc_build (v : Word) : (s.setAcc v).build = s.build := rfl
@[simp] theorem State.setAcc_host (v : Word) : (s.setAcc v).host = s.host := rfl

@[simp] theorem State.setTable_acc (m : Memory) : (s.setTable m).acc = s.acc := rfl
@[simp] theorem State.setTable_table (m : Memory) : (s.setTable m).table = m := rfl
@[simp] theorem State.setTable_tstate (m : Memory) : (s.setTable m).tstate = s.tstate := rfl
@[simp] theorem State.setTable_cause (m : Memory) : (s.setTable m).cause = s.cause := rfl
@[simp] theorem State.setTable_fidx (m : Memory) : (s.setTable m).fidx = s.fidx := rfl
@[simp] theorem State.setTable_out (m : Memory) : (s.setTable m).out = s.out := rfl
@[simp] theorem State.setTable_build (m : Memory) : (s.setTable m).build = s.build := rfl
@[simp] theorem State.setTable_host (m : Memory) : (s.setTable m).host = s.host := rfl

@[simp] theorem State.setTState_acc (t : TState) : (s.setTState t).acc = s.acc := rfl
@[simp] theorem State.setTState_table (t : TState) : (s.setTState t).table = s.table := rfl
@[simp] theorem State.setTState_tstate (t : TState) : (s.setTState t).tstate = t := rfl
@[simp] theorem State.setTState_cause (t : TState) : (s.setTState t).cause = s.cause := rfl
@[simp] theorem State.setTState_fidx (t : TState) : (s.setTState t).fidx = s.fidx := rfl
@[simp] theorem State.setTState_out (t : TState) : (s.setTState t).out = s.out := rfl
@[simp] theorem State.setTState_build (t : TState) : (s.setTState t).build = s.build := rfl
@[simp] theorem State.setTState_host (t : TState) : (s.setTState t).host = s.host := rfl

@[simp] theorem State.emit_acc (b : Byte) : (s.emit b).acc = s.acc := rfl
@[simp] theorem State.emit_table (b : Byte) : (s.emit b).table = s.table := rfl
@[simp] theorem State.emit_tstate (b : Byte) : (s.emit b).tstate = s.tstate := rfl
@[simp] theorem State.emit_cause (b : Byte) : (s.emit b).cause = s.cause := rfl
@[simp] theorem State.emit_fidx (b : Byte) : (s.emit b).fidx = s.fidx := rfl
@[simp] theorem State.emit_out (b : Byte) : (s.emit b).out = s.out ++ [b] := rfl
@[simp] theorem State.emit_build (b : Byte) : (s.emit b).build = s.build := rfl
@[simp] theorem State.emit_host (b : Byte) : (s.emit b).host = s.host := rfl

@[simp] theorem State.setHost_acc (h : List HostAction) : (s.setHost h).acc = s.acc := rfl
@[simp] theorem State.setHost_table (h : List HostAction) : (s.setHost h).table = s.table := rfl
@[simp] theorem State.setHost_tstate (h : List HostAction) : (s.setHost h).tstate = s.tstate := rfl
@[simp] theorem State.setHost_cause (h : List HostAction) : (s.setHost h).cause = s.cause := rfl
@[simp] theorem State.setHost_fidx (h : List HostAction) : (s.setHost h).fidx = s.fidx := rfl
@[simp] theorem State.setHost_out (h : List HostAction) : (s.setHost h).out = s.out := rfl
@[simp] theorem State.setHost_build (h : List HostAction) : (s.setHost h).build = s.build := rfl
@[simp] theorem State.setHost_host (h : List HostAction) : (s.setHost h).host = h := rfl

@[simp] theorem State.raise_acc (f : EngineFault) : (s.raise f).acc = s.acc := rfl
@[simp] theorem State.raise_table (f : EngineFault) : (s.raise f).table = s.table := rfl
@[simp] theorem State.raise_tstate (f : EngineFault) : (s.raise f).tstate = s.tstate := rfl
@[simp] theorem State.raise_cause (f : EngineFault) : (s.raise f).cause = f.cause := rfl
@[simp] theorem State.raise_fidx (f : EngineFault) : (s.raise f).fidx = f.info := rfl
@[simp] theorem State.raise_out (f : EngineFault) : (s.raise f).out = s.out := rfl
@[simp] theorem State.raise_build (f : EngineFault) : (s.raise f).build = s.build := rfl
@[simp] theorem State.raise_host (f : EngineFault) : (s.raise f).host = s.host := rfl

@[simp] theorem State.resetOf_acc (b : Build) (h : List HostAction) : (State.resetOf b h).acc = Config.seed := rfl
@[simp] theorem State.resetOf_cause (b : Build) (h : List HostAction) : (State.resetOf b h).cause = .none := rfl
@[simp] theorem State.resetOf_fidx (b : Build) (h : List HostAction) : (State.resetOf b h).fidx = 0#8 := rfl
@[simp] theorem State.resetOf_out (b : Build) (h : List HostAction) : (State.resetOf b h).out = [] := rfl
@[simp] theorem State.resetOf_build (b : Build) (h : List HostAction) : (State.resetOf b h).build = b := rfl
@[simp] theorem State.resetOf_host (b : Build) (h : List HostAction) : (State.resetOf b h).host = h := rfl
@[simp] theorem State.resetOf_generated_table (h : List HostAction) : (State.resetOf .generated h).table = [] := rfl
@[simp] theorem State.resetOf_generated_tstate (h : List HostAction) : (State.resetOf .generated h).tstate = .empty := rfl
@[simp] theorem State.resetOf_embedded_table (rom : Vector Word 256) (h : List HostAction) :
    (State.resetOf (.embedded rom) h).table = Memory.ofRom rom := rfl
@[simp] theorem State.resetOf_embedded_tstate (rom : Vector Word 256) (h : List HostAction) :
    (State.resetOf (.embedded rom) h).tstate = .loaded := rfl
@[simp] theorem State.takeReset_eq : s.takeReset = State.resetOf s.build s.host := rfl

@[simp] theorem Config.seed_eq : Config.seed = 0xFFFF#16 := rfl

@[simp] theorem EngineFault.cause_ne_none (f : EngineFault) : f.cause ≠ .none := by cases f <;> simp [EngineFault.cause]

@[simp] theorem EngineFault.cause_mismatch (i : Byte) : (EngineFault.tableMismatch i).cause = .tableMismatch := rfl
@[simp] theorem EngineFault.cause_illegal : EngineFault.illegalCmd.cause = .illegalCmd := rfl
@[simp] theorem EngineFault.cause_notReady : EngineFault.tableNotReady.cause = .tableNotReady := rfl
@[simp] theorem EngineFault.info_mismatch (i : Byte) : (EngineFault.tableMismatch i).info = i := rfl
@[simp] theorem EngineFault.info_illegal : EngineFault.illegalCmd.info = 0#8 := rfl
@[simp] theorem EngineFault.info_notReady : EngineFault.tableNotReady.info = 0#8 := rfl

/-- `halted` by the cause: the one spelling proofs use is `s.cause = .none`. -/
@[simp] theorem State.halted_eq_false : s.halted = false ↔ s.cause = .none := by
  cases h : s.cause <;> simp [State.halted, Cause.code, h]

@[simp] theorem State.halted_eq_true : s.halted = true ↔ s.cause ≠ .none := by
  cases h : s.cause <;> simp [State.halted, Cause.code, h]

end Sys2Proof.Machine
end

