-- ==== Sys2Proof/Laws/Step.lean ====
section
/-! SUPPORT. What one step can do, said once: by the host's next action for a running engine, by the host's next
reset for a halted one. Every invariant is derived from `step_cases`. -/

namespace Sys2Proof.Machine

theorem step_running {s : State} (h : s.cause = .none) : step s = runStep s := by
  simp [step, (State.halted_eq_false s).mpr h]

theorem step_halted {s : State} (h : s.cause ≠ .none) : step s = haltedStep s := by
  simp [step, (State.halted_eq_true s).mpr h]

/-- The word at the head of the host's list is accepted by an engine that runs. -/
theorem step_command {s : State} {w : CmdWord} {rest : List HostAction} (h : s.cause = .none)
    (hh : s.host = .command w :: rest) : step s = acceptWord w (s.setHost rest) := by
  rw [step_running h]; simp [runStep, hh]

theorem afterReset_spec (l : List HostAction) :
    (afterReset l = none ∧ .reset ∉ l) ∨
    ∃ (ws : List CmdWord) (rest : List HostAction), l = ws.map .command ++ .reset :: rest ∧ afterReset l = some rest := by
  induction l with
  | nil => simp [afterReset]
  | cons a l ih =>
    cases a with
    | command w =>
      rcases ih with ⟨h1, h2⟩ | ⟨ws, rest, rfl, h⟩
      · exact .inl ⟨h1, by simpa using h2⟩
      · exact .inr ⟨w :: ws, rest, rfl, h⟩
    | reset => exact .inr ⟨[], l, rfl, rfl⟩

/-- Everything a step that answers a next state can do. -/
theorem step_cases {s t : State} (h : step s = .next t) :
    (s.cause = .none ∧ s.host = [] ∧ t = s) ∨
    (∃ w rest, s.cause = .none ∧ s.host = .command w :: rest ∧ acceptWord w (s.setHost rest) = .next t) ∨
    (∃ rest, s.cause = .none ∧ s.host = .reset :: rest ∧ t = State.resetOf s.build rest) ∨
    (∃ (ws : List CmdWord) (rest : List HostAction), s.cause ≠ .none ∧ s.host = ws.map .command ++ .reset :: rest ∧ t = State.resetOf s.build rest) := by
  by_cases hc : s.cause = .none
  · rw [step_running hc] at h
    unfold runStep at h
    split at h
    · next hh => cases h; exact .inl ⟨hc, hh, rfl⟩
    · next w rest hh => exact .inr (.inl ⟨w, rest, hc, hh, h⟩)
    · next rest hh => cases h; exact .inr (.inr (.inl ⟨rest, hc, hh, rfl⟩))
  · rw [step_halted hc] at h
    unfold haltedStep at h
    rcases afterReset_spec s.host with ⟨h1, -⟩ | ⟨ws, rest, hh, h1⟩
    · rw [h1] at h; cases h
    · rw [h1] at h; cases h; exact .inr (.inr (.inr ⟨ws, rest, hc, hh, rfl⟩))

/-- An accepted word is a command that is executed, or raises IllegalCmd. -/
theorem acceptWord_cases (w : CmdWord) (s : State) :
    (∃ i, decode w = .ok i ∧ acceptWord w s = exec i s) ∨
    (∃ e, decode w = .error e ∧ acceptWord w s = .next (s.raise .illegalCmd)) := by
  unfold acceptWord
  cases h : decode w with
  | ok i => exact .inl ⟨i, rfl, rfl⟩
  | error e => exact .inr ⟨e, rfl, rfl⟩

end Sys2Proof.Machine
end

