-- ==== Sys2Proof/Laws/Exec.lean ====
section
/-! SUPPORT. What the comparison of the table finds, in the terms of Safety.lean; and what each command can do, said
once: every fact about an executed command is derived from `exec_cases`. -/

namespace Sys2Proof.Machine

/-- The indices before one in the loop over 0..255 are the lower ones. -/
theorem mem_before_of_lt {pre post : List Byte} {i j : Byte} (h : tableIndices = pre ++ i :: post)
    (hj : j.toNat < i.toNat) : j ∈ pre := by
  have hm := mem_tableIndices j
  have hr := tableIndices_rising
  rw [h] at hm hr
  rw [List.pairwise_append] at hr
  simp only [List.mem_append, List.mem_cons] at hm
  rcases hm with h1 | rfl | h1
  · exact h1
  · omega
  · have := (List.pairwise_cons.mp hr.2.1).1 j h1
    omega

theorem Memory.LowestWrong.not_correct {m : Memory} {i : Byte} (h : m.LowestWrong i) : ¬ m.Correct :=
  fun hc => h.1 (hc i)

/-- There is at most one lowest wrong index. -/
theorem Memory.LowestWrong.unique {m : Memory} {i j : Byte} (h : m.LowestWrong i) (h' : m.LowestWrong j) : i = j := by
  rcases Nat.lt_trichotomy i.toNat j.toNat with hl | hl | hl
  · exact absurd (h'.2 i hl) h.1
  · exact BitVec.eq_of_toNat_eq hl
  · exact absurd (h.2 j hl) h'.1

/-- All the comparison over 0..255 can answer. -/
theorem Memory.verify_spec (m : Memory) :
    (m.Correct ∧ m.verify tableIndices = .allMatch) ∨
    (∃ i, m.LowestWrong i ∧ m.read i = none ∧ m.verify tableIndices = .unwritten i) ∨
    (∃ i v, m.LowestWrong i ∧ m.read i = some v ∧ v ≠ tableEntry i ∧ m.verify tableIndices = .mismatch i) := by
  rcases m.verify_cases tableIndices with ⟨h, h2⟩ | ⟨pre, i, post, hp, hq, ⟨h3, h4⟩ | ⟨v, h3, h4, h5⟩⟩
  · exact .inl ⟨fun i => h2 i (mem_tableIndices i), h⟩
  · exact .inr (.inl ⟨i, ⟨by simp [h4], fun j hj => hq j (mem_before_of_lt hp hj)⟩, h4, h3⟩)
  · exact .inr (.inr ⟨i, v, ⟨by simp [h4, h5], fun j hj => hq j (mem_before_of_lt hp hj)⟩, h4, h5, h3⟩)

/-- A table filled over 0..255 is correct, whatever it held. -/
theorem Memory.correct_fill (m : Memory) : (m.fill tableEntry tableIndices).Correct := by
  intro i
  rw [Memory.read_fill, if_pos (mem_tableIndices i)]

/-- Filling writes no index beyond the table space. -/
theorem Memory.readCell_fill_of_ge (f : Byte → Word) (m : Memory) (is : List Byte) {k : Nat} (hk : 256 ≤ k) :
    (m.fill f is).readCell k = m.readCell k := by
  induction is generalizing m with
  | nil => rfl
  | cons i is ih =>
    have hi := i.isLt
    rw [show m.fill f (i :: is) = (m.write i (f i)).fill f is from rfl, ih, Memory.write,
      Memory.readCell_writeCell, if_neg (by omega)]

/-- What the commands can do, one constructor per case of their rules. -/
inductive ExecCase (s t : State) : Instr → Prop where
  | init : t = s.setAcc Config.seed → ExecCase s t .init
  | emit : t = (s.emit (lowByte s.acc)).emit (highByte s.acc) → ExecCase s t .emit
  | updb (b : Byte) : t = s.setAcc (updB s.acc b) → ExecCase s t (.updb b)
  | updtNotReady (b : Byte) : s.tstate ≠ .verified → t = s.raise .tableNotReady → ExecCase s t (.updt b)
  | updt (b : Byte) (entry : Word) : s.tstate = .verified → s.table.read (tableIndex s.acc b) = some entry →
      t = s.setAcc (tableStep s.acc entry) → ExecCase s t (.updt b)
  | tgen : s.tstate = .empty →
      t = (s.setTable (s.table.fill tableEntry tableIndices)).setTState .loaded → ExecCase s t .tgen
  | tgenAgain : s.tstate ≠ .empty → t = s → ExecCase s t .tgen
  | tverNotReady : s.tstate = .empty → t = s.raise .tableNotReady → ExecCase s t .tver
  | tverMatch : s.tstate = .loaded → s.table.Correct → t = s.setTState .verified → ExecCase s t .tver
  | tverMismatch (i : Byte) (v : Word) : s.tstate = .loaded → s.table.LowestWrong i → s.table.read i = some v →
      t = s.raise (.tableMismatch i) → ExecCase s t .tver
  | tverAgain : s.tstate = .verified → t = s → ExecCase s t .tver

/-- Everything an executed command that answers a next state can do. -/
theorem exec_cases {i : Instr} {s t : State} (h : exec i s = .next t) : ExecCase s t i := by
  cases i with
  | init => cases h; exact .init rfl
  | emit => cases h; exact .emit rfl
  | updb b => cases h; exact .updb b rfl
  | updt b =>
    simp only [exec, execUpdt] at h
    split at h
    · next h1 => cases h; exact .updtNotReady b (by simp [h1]) rfl
    · next h1 => cases h; exact .updtNotReady b (by simp [h1]) rfl
    · next h1 =>
      split at h
      · cases h
      · next e he => cases h; exact .updt b e h1 he rfl
  | tgen =>
    simp only [exec, execTgen] at h
    split at h
    · next h1 => cases h; exact .tgen h1 rfl
    · next h1 => cases h; exact .tgenAgain (by simp [h1]) rfl
    · next h1 => cases h; exact .tgenAgain (by simp [h1]) rfl
  | tver =>
    simp only [exec, execTver] at h
    split at h
    · next h1 => cases h; exact .tverNotReady h1 rfl
    · next h1 =>
      rcases s.table.verify_spec with ⟨hc, hv⟩ | ⟨i, _, _, hv⟩ | ⟨i, v, hl, hr, _, hv⟩
      · rw [hv] at h; cases h; exact .tverMatch h1 hc rfl
      · rw [hv] at h; cases h
      · rw [hv] at h; cases h; exact .tverMismatch i v h1 hl hr rfl
    · next h1 => cases h; exact .tverAgain h1 rfl

/-- No command changes the build. -/
theorem exec_build {i : Instr} {s t : State} (h : exec i s = .next t) : t.build = s.build := by
  cases exec_cases h <;> subst t <;> simp

/-- No command changes what the host does next. -/
theorem exec_host {i : Instr} {s t : State} (h : exec i s = .next t) : t.host = s.host := by
  cases exec_cases h <;> subst t <;> simp

/-- The reset state's table is in canonical form. -/
theorem State.resetOf_table_wf (b : Build) (h : List HostAction) : (State.resetOf b h).table.wf = true := by
  cases b with
  | generated => rfl
  | embedded rom => exact Memory.wf_ofRom rom

end Sys2Proof.Machine
end

