-- ==== Sys2Proof/Laws/PerInstr.lean ====
section
/-! SUPPORT. The family RowMatch: the word of an instruction fits the match/mask row of R70 that bears the
instruction's mnemonic. -/

namespace Sys2Proof.Laws.RowMatch

/-- The row of the instruction's mnemonic is in R70's list and its word fits that row. -/
def Statement (i : Instr) : Prop :=
  ∃ r ∈ matchRows, r.mnemonic = i.mnemonic ∧ r.fits (encode i) = true

theorem init : Statement .init := ⟨⟨"INIT", 0x100#12, 0xFFF#12⟩, by decide, rfl, by decide⟩

theorem updt (b : Byte) : Statement (.updt b) := by
  refine ⟨⟨"UPDT", 0x200#12, 0xF00#12⟩, by decide, rfl, ?_⟩
  revert b; decide +kernel

theorem updb (b : Byte) : Statement (.updb b) := by
  refine ⟨⟨"UPDB", 0x300#12, 0xF00#12⟩, by decide, rfl, ?_⟩
  revert b; decide +kernel

theorem emit : Statement .emit := ⟨⟨"EMIT", 0x400#12, 0xFFF#12⟩, by decide, rfl, by decide⟩

theorem tgen : Statement .tgen := ⟨⟨"TGEN", 0x500#12, 0xFFF#12⟩, by decide, rfl, by decide⟩

theorem tver : Statement .tver := ⟨⟨"TVER", 0x600#12, 0xFFF#12⟩, by decide, rfl, by decide⟩

end Sys2Proof.Laws.RowMatch
end

