-- ==== Sys2Proof/Laws/Ports.lean ====
section
/-! SUPPORT. What each phase lets wait and has in progress, what one edge can do, said once (`edge_cases`), and runs
at the ports, peeled one edge at a time. -/

namespace Sys2Proof.Machine

theorem recoverPhase_cases (e : Nat) : recoverPhase e = .ready ∨ ∃ n, recoverPhase e = .recovering n := by
  unfold recoverPhase
  split
  · exact .inl rfl
  · exact .inr ⟨_, rfl⟩

@[simp] theorem recoverPhase_waiting (e : Nat) : (recoverPhase e).waiting = [] := by
  rcases recoverPhase_cases e with h | ⟨n, h⟩ <;> rw [h] <;> rfl

@[simp] theorem recoverPhase_inProgress (e : Nat) : (recoverPhase e).inProgress = [] := by
  rcases recoverPhase_cases e with h | ⟨n, h⟩ <;> rw [h] <;> rfl

@[simp] theorem phaseAfter_waiting (e : Nat) (bs : List Byte) : (phaseAfter e bs).waiting = bs := by
  cases bs with
  | nil => exact recoverPhase_waiting e
  | cons b bs => rfl

@[simp] theorem phaseAfter_inProgress (e : Nat) (bs : List Byte) : (phaseAfter e bs).inProgress = [] := by
  cases bs with
  | nil => exact recoverPhase_inProgress e
  | cons b bs => rfl

/-- A phase that runs a word has it in progress. -/
theorem Phase.inProgress_running {ph : Phase} {w : CmdWord} : ph.inProgress = [w] ↔ ∃ n, ph = .running w n := by
  cases ph <;> simp [Phase.inProgress]

/-- A byte is offered by a delivering phase alone. -/
theorem Phase.offered_some {ph : Phase} {b : Byte} :
    ph.offered = some b ↔ ∃ bs, ph = .delivering (b :: bs) 0 := by
  unfold Phase.offered
  split
  · simp
  · next h => simp only [reduceCtorEq, false_iff]; rintro ⟨bs, rfl⟩; exact h _ _ rfl

/-- A word is accepted in the phase `ready` alone. -/
theorem PortState.accepts_ready {p : PortState} {i : PinsIn} {w : CmdWord} (h : p.accepts i = some w) :
    p.phase = .ready ∧ p.core.halted = false := by
  unfold PortState.accepts at h
  split at h
  · next hc => simp [PortState.cmdReady] at hc; exact ⟨hc.1.2, (State.halted_eq_false _).mpr hc.1.1.2⟩
  · cases h

theorem PortState.accepts_none {p : PortState} (i : PinsIn) (h : p.phase ≠ .ready) : p.accepts i = none := by
  cases ha : p.accepts i with
  | none => rfl
  | some w => exact absurd (PortState.accepts_ready ha).1 h

theorem PortState.takes_none {p : PortState} (i : PinsIn) (h : p.phase.offered = none) : p.takes i = none := by
  simp [PortState.takes, PortState.outValid, h]

/-- What the edges do at which an engine only waits: nothing is accepted, nothing is taken, and the new phase has the
same bytes waiting and the same word in progress. -/
structure PortState.Waits (p : PortState) (i : PinsIn) (ph : Phase) : Prop where
  accepts : p.accepts i = none
  takes : p.takes i = none
  waiting : ph.waiting = p.phase.waiting
  inProgress : ph.inProgress = p.phase.inProgress
  delivering : ∀ bytes n, ph = .delivering bytes n → ∃ m, p.phase = .delivering bytes m

/-- Everything an edge that has a next state can do. -/
theorem PortState.edge_cases {p p' : PortState} {i : PinsIn} (h : p.edge i = .next p') :
    (i.rst = true ∧ p' = p.resetEdge) ∨
    (i.rst = false ∧
      ((∃ w, p.accepts i = some w ∧ p' = p.goOn (.running w (Config.runEdges p.edges))) ∨
      (∃ w t, p.phase = .running w 0 ∧ acceptWord w p.core = .next t ∧
        p' = { p with core := t, phase := phaseAfter p.edges (t.out.drop p.core.out.length),
                      edges := p.edges + 1 }) ∨
      (∃ b bs, p.phase = .delivering (b :: bs) 0 ∧ p' = p.deliver b bs i.outReady) ∨
      (∃ ph, p.Waits i ph ∧ p' = p.goOn ph))) := by
  cases hr : i.rst with
  | true => rw [PortState.edge, if_pos hr] at h; cases h; exact .inl ⟨rfl, rfl⟩
  | false =>
    refine .inr ⟨rfl, ?_⟩
    rw [PortState.edge, if_neg (by simp [hr])] at h
    unfold PortState.runEdge at h
    split at h
    · next hp =>
      split at h
      · next w ha => cases h; exact .inl ⟨w, ha, rfl⟩
      · next ha =>
        cases h
        exact .inr (.inr (.inr ⟨_, ⟨ha, p.takes_none i (by rw [hp]; rfl), by rw [hp], by rw [hp], by intro _ _ he; cases he⟩, rfl⟩))
    · next w n hp =>
      cases h
      exact .inr (.inr (.inr ⟨_, ⟨p.accepts_none i (by simp [hp]), p.takes_none i (by rw [hp]; rfl),
        by rw [hp]; rfl, by rw [hp]; rfl, by intro _ _ he; cases he⟩, rfl⟩))
    · next w hp =>
      unfold PortState.finish at h
      split at h
      · next t ht => cases h; exact .inr (.inl ⟨w, t, hp, ht, rfl⟩)
      · cases h
      · cases h
    · next bytes n hp =>
      cases h
      refine .inr (.inr (.inr ⟨_, ⟨p.accepts_none i (by simp [hp]), p.takes_none i ?_, by rw [hp]; rfl,
        by rw [hp]; rfl, ?_⟩, rfl⟩))
      · rw [hp]; cases bytes <;> rfl
      · intro bytes' n' he; cases he; exact ⟨_, hp⟩
    · next b bs hp => cases h; exact .inr (.inr (.inl ⟨b, bs, hp, rfl⟩))
    · next hp =>
      cases h
      refine .inr (.inr (.inr ⟨_, ⟨p.accepts_none i (by simp [hp]), p.takes_none i (by rw [hp]; rfl),
        by rw [hp, recoverPhase_waiting]; rfl, by rw [hp, recoverPhase_inProgress]; rfl, ?_⟩, rfl⟩))
      intro bytes n he
      rcases recoverPhase_cases p.edges with h | ⟨m, h⟩ <;> rw [h] at he <;> cases he
    · next n hp =>
      cases h
      exact .inr (.inr (.inr ⟨_, ⟨p.accepts_none i (by simp [hp]), p.takes_none i (by rw [hp]; rfl),
        by rw [hp]; rfl, by rw [hp]; rfl, by intro _ _ he; cases he⟩, rfl⟩))
    · next hp =>
      cases h
      exact .inr (.inr (.inr ⟨_, ⟨p.accepts_none i (by simp [hp]), p.takes_none i (by rw [hp]; rfl),
        by rw [hp]; rfl, by rw [hp]; rfl, by intro _ _ he; cases he⟩, rfl⟩))

theorem PortState.run_cons {p q : PortState} {i : PinsIn} (ins : List PinsIn) (h : p.edge i = .next q) :
    PortState.run (i :: ins) p = PortState.run ins q := by
  simp [PortState.run, h]

theorem PortState.acceptedWords_cons {p q : PortState} {i : PinsIn} (ins : List PinsIn) (h : p.edge i = .next q) :
    PortState.acceptedWords (i :: ins) p = (p.accepts i).toList ++ PortState.acceptedWords ins q := by
  simp [PortState.acceptedWords, h]

end Sys2Proof.Machine
end

