-- ==== Sys2Proof/Laws/Run.lean ====
section
/-! SUPPORT. Runs of several steps, peeled one at a time, and their agreement with `Host.Core.run`. -/

namespace Sys2Proof.Machine

@[simp] theorem runSteps_zero (s : State) : runSteps 0 s = .next s := rfl

/-- A run whose first step answers a next state goes on from there. -/
theorem runSteps_succ {s t : State} (n : Nat) (h : step s = .next t) : runSteps (n + 1) s = runSteps n t := by
  simp [runSteps, h]

/-- A run whose first step stops has stopped. -/
theorem runSteps_succ_fault {s : State} {f : Fault} (n : Nat) (h : step s = .fault f) :
    runSteps (n + 1) s = .fault f := by
  simp [runSteps, h]

/-- A run cut in two: the second part starts where the first ends. -/
theorem runSteps_add {s t : State} (a b : Nat) (h : runSteps a s = .next t) :
    runSteps (a + b) s = runSteps b t := by
  induction a generalizing s with
  | zero => cases h; rw [Nat.zero_add]
  | succ a ih =>
    rw [Nat.add_right_comm]
    simp only [runSteps] at h ⊢
    cases hs : step s with
    | next u => rw [hs] at h; exact ih h
    | fault f => rw [hs] at h; cases h
    | refused r => rw [hs] at h; cases h

/-- A longer run of a run that has stopped is the same stop. -/
theorem runSteps_add_fault {s : State} {f : Fault} (a b : Nat) (h : runSteps a s = .fault f) :
    runSteps (a + b) s = .fault f := by
  induction a generalizing s with
  | zero => cases h
  | succ a ih =>
    rw [Nat.add_right_comm]
    simp only [runSteps] at h ⊢
    cases hs : step s with
    | next u => rw [hs] at h; exact ih h
    | fault g => rw [hs] at h; exact h
    | refused r => rw [hs] at h; cases h

/-- One step of the host's run, of any machine. -/
theorem core_run_succ (M : Host.Core) (n : Nat) (s : M.State) :
    Host.Core.run M (n + 1) s = match M.step s with
      | .next t => Host.Core.run M n t
      | .fault f => .fault f
      | .refused r => .refused r := rfl

/-- `runSteps` is the host's own run of the machine. -/
theorem runSteps_eq_core_run (n : Nat) (s : State) : Host.Core.run Sys2Proof.core n s = runSteps n s := by
  induction n generalizing s with
  | zero => rfl
  | succ n ih =>
    have h := core_run_succ Sys2Proof.core n s
    cases hs : step s with
    | next t =>
      rw [show Sys2Proof.core.step s = .next t from hs] at h
      rw [runSteps, hs]
      exact h.trans (ih t)
    | fault f =>
      rw [show Sys2Proof.core.step s = .fault f from hs] at h
      rw [runSteps, hs]
      exact h
    | refused r =>
      rw [show Sys2Proof.core.step s = .refused r from hs] at h
      rw [runSteps, hs]
      exact h

end Sys2Proof.Machine
end

