-- ==== Sys2Proof/Tests/Slice0.lean ====
section
/-! SUPPORT. Small tests, their expected results taken from spec/ (each names its place), and for every statement with
hypotheses a concrete state and operands that meet them. -/

namespace Sys2Proof.Tests

open Sys2Proof Sys2Proof.Machine

/-- A state of an engine that runs, with nothing emitted and no host action. -/
def mk (acc : Word) (tstate : TState) (table : Memory) : State :=
  { State.reset with acc := acc, tstate := tstate, table := table }

/-- The next state of an outcome, if it has one. -/
def nextOf (o : Host.Outcome State Fault Refusal) : Option State :=
  match o with
  | .next s => some s
  | _ => none

/-- The table TGEN makes. -/
@[irreducible] def fullTable : Memory := Memory.fill tableEntry [] tableIndices

theorem fullTable_wf : fullTable.wf = true := by unfold fullTable; exact Memory.wf_fill rfl _ _

theorem fullTable_correct : fullTable.Correct := by unfold fullTable; exact Memory.correct_fill []

theorem fullTable_verifies : fullTable.verify tableIndices = .allMatch := by
  rcases fullTable.verify_spec with ⟨_, h⟩ | ⟨_, h, _⟩ | ⟨_, _, h, _⟩
  · exact h
  · exact absurd fullTable_correct h.not_correct
  · exact absurd fullTable_correct h.not_correct

/-- A VERIFIED table as TGEN and TVER leave it. -/
def verified : State := mk 0x1234#16 .verified fullTable

/-- A LOADED table as TGEN leaves it. -/
def loaded : State := mk 0x1234#16 .loaded fullTable

theorem verified_updt (b : Byte) :
    exec (.updt b) verified = .next (verified.setAcc (tableStep verified.acc (tableEntry (tableIndex verified.acc b)))) := by
  have h : verified.table.read (tableIndex verified.acc b) = some (tableEntry (tableIndex verified.acc b)) :=
    fullTable_correct _
  simp only [exec, execUpdt, show verified.tstate = .verified from rfl, h]

theorem tver_of_match {s : State} (h : s.tstate = .loaded) (hv : s.table.verify tableIndices = .allMatch) :
    exec .tver s = .next (s.setTState .verified) := by
  simp only [exec, execTver, h, hv]

theorem loaded_tver : exec .tver loaded = .next (loaded.setTState .verified) := tver_of_match rfl fullTable_verifies

theorem tgen_of_empty {s : State} (h : s.tstate = .empty) :
    exec .tgen s = .next ((s.setTable (s.table.fill tableEntry tableIndices)).setTState .loaded) := by
  simp only [exec, execTgen, h]

/-- One step of a running engine that is offered a command. -/
theorem step_offered {s : State} {w : CmdWord} {i : Instr} {rest : List HostAction} (hd : decode w = .ok i)
    (hc : s.cause = .none) : step (s.setHost (.command w :: rest)) = exec i (s.setHost rest) := by
  rw [step_command (s := s.setHost (.command w :: rest)) hc rfl]
  simp only [acceptWord, hd]
  rfl

/-! ## Well-formedness: each check refuses an ill-formed word -/

/-- R65: a reserved opcode. -/
theorem test_reserved_opcode_refused : opcodeKnown 0x700#12 = false ∧ legalWord 0x700#12 = false := by decide

/-- R66: a non-zero field of format Z; and the same bits are legal in format B (R62). -/
theorem test_nonzero_field_refused :
    zeroFieldClear 0x401#12 = false ∧ legalWord 0x401#12 = false ∧ zeroFieldClear 0x201#12 = true := by decide

/-- R65: the all-zero and the all-one word are illegal. -/
theorem test_stuck_port_illegal : legalWord 0x000#12 = false ∧ legalWord 0xFFF#12 = false := by decide

/-- R5: reversing the 16 bits of 0x8005 gives 0xA001. -/
theorem test_poly_reflected : Config.polyNorm.reverse = Config.polyRefl := by decide

/-! ## Decoding: words written out from R60 to R63 and 95_test_vectors.md section 2.1 -/

theorem test_decode_init : decode 0b000100000000#12 = .ok .init := by decide
theorem test_decode_updt : decode 0b001000000110#12 = .ok (.updt 0x06#8) := by decide
theorem test_decode_updt_top : decode 0b001011111111#12 = .ok (.updt 0xFF#8) := by decide
theorem test_decode_updb : decode 0b001110100101#12 = .ok (.updb 0xA5#8) := by decide
theorem test_decode_emit : decode 0b010000000000#12 = .ok .emit := by decide
theorem test_decode_tgen : decode 0b010100000000#12 = .ok .tgen := by decide
theorem test_decode_tver : decode 0b011000000000#12 = .ok .tver := by decide
theorem test_decode_bad_field : decode 0b000100000001#12 = .error .nonZeroField := by decide
theorem test_decode_reserved : decode 0b101001011010#12 = .error .reservedOpcode := by decide
theorem test_decode_zero_opcode : decode 0x0FF#12 = .error .reservedOpcode := by decide

/-- The table's numbering: a 12-bit row given in whole bytes; a number beyond 12 bits is no word. -/
theorem test_table_word :
    decodeTableWord 16 0x206 = some (.updt 0x06#8) ∧ decodeTableWord 12 0x600 = some .tver ∧
    decodeTableWord 16 0x1206 = none := by decide

/-- The very next step after reset runs the word that is put there. -/
theorem test_fetch_word_runs :
    (nextOf (step (State.reset.withFetchWord 16 0x301))).map (·.acc) = some 0x807E#16 := by decide +kernel

/-! ## The commands: 95_test_vectors.md sections 2.2 to 2.6 -/

theorem test_init : (nextOf (exec .init (mk 0xC8C5#16 .empty []))).map (·.acc) = some 0xFFFF#16 := by decide

theorem test_emit_order :
    (nextOf (exec .emit (mk 0x1234#16 .empty []))).map (·.out) = some [0x34#8, 0x12#8] := by decide

theorem test_updb : (nextOf (exec (.updb 0x56#8) (mk 0x1234#16 .empty []))).map (·.acc) = some 0xE993#16 := by
  decide +kernel

theorem test_updb_low_byte_cleared :
    (nextOf (exec (.updb 0xFF#8) (mk 0xFFFF#16 .loaded []))).map (·.acc) = some 0x00FF#16 := by decide +kernel

theorem test_updt :
    (nextOf (exec (.updt 0x01#8) (mk 0xFFFF#16 .verified [(0xFE, 0x8081#16)]))).map (·.acc) = some 0x807E#16 := by
  decide +kernel

/-- Section 2.6: UPDT with the table LOADED, not VERIFIED; ACC is kept. -/
theorem test_updt_not_ready :
    (nextOf (exec (.updt 0x03#8) (mk 0x807E#16 .loaded []))).map (fun t => (t.acc, t.status)) =
      some (0x807E#16, ⟨1#2, 3#2, 0#8, true⟩) := by decide

theorem test_tgen :
    (nextOf (exec .tgen (mk 0xFFFF#16 .empty []))).map (fun t => (t.tstate, t.table.read 0x01#8, t.table.read 0xFF#8)) =
      some (.loaded, some 0xC0C1#16, some 0x4040#16) := by
  have h1 : tableEntry 0x01#8 = 0xC0C1#16 := by decide +kernel
  have h2 : tableEntry 0xFF#8 = 0x4040#16 := by decide +kernel
  simp [exec, execTgen, mk, nextOf, Memory.read_fill, h1, h2]

/-- Section 2.5: TGEN on a LOADED table does not repair it. -/
theorem test_tgen_does_not_repair :
    (nextOf (exec .tgen (mk 0xFFFF#16 .loaded [(1, 0xC0C0#16)]))).map (·.table) = some [(1, 0xC0C0#16)] := by decide

/-- Section 2.5: EMB bad, TABLE_ROM[01] = C0C0. -/
theorem test_tver_mismatch :
    (nextOf (exec .tver (mk 0xFFFF#16 .loaded [(0, 0x0000#16), (1, 0xC0C0#16)]))).map (·.status) =
      some ⟨1#2, 1#2, 0x01#8, true⟩ := by decide +kernel

theorem test_tver_success : (nextOf (exec .tver loaded)).map (·.status) = some ⟨2#2, 0#2, 0#8, false⟩ := by
  rw [loaded_tver]; decide

/-- Section 2.6: word 401 with a verified table. -/
theorem test_illegal_word_halts :
    (nextOf (step ((mk 0x1234#16 .verified []).offerWord 0x401#12))).map (fun t => (t.acc, t.out, t.status)) =
      some (0x1234#16, [], ⟨2#2, 2#2, 0#8, true⟩) := by decide

/-- Section 2.6, last two rows: a halted engine accepts no word, and reset leaves the halt. -/
theorem test_halted_steps_by_reset :
    (nextOf (step { mk 0x1234#16 .empty [] with cause := .illegalCmd, host := [.command 0x100#12, .reset] })) =
      some State.reset := by decide

/-! ## The arithmetic: 95_test_vectors.md sections 2.4, S2 and 2.7 -/

theorem test_step1 :
    [0x0001#16, 0x0002#16, 0x8000#16, 0xFFFF#16, 0xA001#16].map step1 =
      [0xA001#16, 0x0001#16, 0x4000#16, 0xDFFE#16, 0xF001#16] := by decide

/-- The stage trace of R105 for ACC = 0xFFFF, b = 0x01. -/
theorem test_stages :
    [1, 2, 3, 4, 5, 6, 7, 8].map (stage 0xFFFE#16) =
      [0x7FFF#16, 0x9FFE#16, 0x4FFF#16, 0x87FE#16, 0x43FF#16, 0x81FE#16, 0x40FF#16, 0x807E#16] := by decide

/-- The ASCII string 123456789 (section 2.7). -/
theorem test_crc_check_value :
    crc [0x31#8, 0x32#8, 0x33#8, 0x34#8, 0x35#8, 0x36#8, 0x37#8, 0x38#8, 0x39#8] = 0x4B37#16 := by decide +kernel

/-! ## The assembler: R71 and R72 -/

theorem test_assemble_decimal : assembleLine ['U', 'P', 'D', 'T', ' ', '6', ' ', '#', ' ', 'x'] = some [0x206#12] := by
  decide +kernel

theorem test_assemble_boot : assemble ['B', 'O', 'O', 'T', '\n', '#', 'c', '\n', 'I', 'N', 'I', 'T'] =
    some [0x500#12, 0x600#12, 0x100#12] := by decide +kernel

theorem test_assemble_rejects : assembleLine ['U', 'P', 'D', 'B', ' ', '2', '5', '6'] = none ∧
    assembleLine ['E', 'M', 'I', 'T', ' ', '0'] = none := by decide +kernel

theorem test_assemble_computation :
    assembleLine ['C', 'R', 'C', '1', '6', '.', 'B', ' ', '0', 'x', 'f', 'F'] =
      some [0x100#12, 0x3FF#12, 0x400#12] := by decide +kernel

/-! ## Witnesses: for each statement with hypotheses, a state and operands that meet them together -/

/-- The ROM that holds 0xFFFF everywhere, wrong at index 0. -/
def badRom : Vector Word 256 := Vector.replicate 256 0xFFFF#16

/-- The ROM that is right at index 0 and wrong at index 1. -/
def badRom1 : Vector Word 256 := (Vector.replicate 256 0xFFFF#16).set 0 0x0000#16

/-- A halted engine: TableMismatch at index 0 of `badRom`. -/
def halted : State :=
  { State.resetOf (.embedded badRom) [] with cause := .tableMismatch, fidx := 0#8 }

/-- A halted engine after an illegal word. -/
def haltedIllegal : State := { State.reset with cause := .illegalCmd }

theorem witness_generated_table_inv (t : TState) (h : t ≠ .empty) : (mk 0x1234#16 t fullTable).TableInv where
  canonical := fullTable_wf
  empty_unwritten h' := absurd h' h
  generated_correct _ _ := fullTable_correct
  embedded_rom _ h' := nomatch h'
  verified_correct _ := fullTable_correct

theorem witness_verified_inv : verified.TableInv := witness_generated_table_inv _ (by decide)

theorem witness_loaded_inv : loaded.TableInv := witness_generated_table_inv _ (by decide)

theorem witness_ResetHasPriorityInEveryState :
    (⟨true, true, 0x100#12, true⟩ : PinsIn).rst = true ∧
    (haltedIllegal.setHost [.reset]).host = .reset :: [] := ⟨rfl, rfl⟩

theorem witness_CauseIsStickyUntilReset :
    (haltedIllegal.setHost [.reset]).cause ≠ .none ∧
    step (haltedIllegal.setHost [.reset]) = .next (State.resetOf .generated []) := ⟨by decide, rfl⟩

/-- Each transition of R23 happens: TGEN from EMPTY, TVER from LOADED, reset. -/
theorem witness_TableStatusMovesForwardOnly :
    (nextOf (step (State.reset.offerWord 0x500#12))).map (·.tstate) = some .loaded ∧
    step (loaded.setHost [.command 0x600#12]) = exec .tver (loaded.setHost []) ∧
    exec .tver (loaded.setHost []) = .next ((loaded.setHost []).setTState .verified) ∧
    loaded.table.Correct ∧ (nextOf (step (verified.setHost [.reset]))).map (·.tstate) = some .empty :=
  ⟨by decide +kernel, step_offered (by decide) rfl, tver_of_match rfl fullTable_verifies, fullTable_correct, by decide⟩

theorem witness_OutIsAppendOnly :
    (State.reset.offerWord 0x400#12).cause = .none ∧ (State.reset.offerWord 0x400#12).host = .command 0x400#12 :: [] ∧
    step (State.reset.offerWord 0x400#12) = .next { State.reset with out := [0xFF#8, 0xFF#8] } :=
  ⟨rfl, rfl, rfl⟩

/-- The other clauses of OutIsAppendOnly: nothing is offered; a reset is next; a reset follows a word at a halt. -/
theorem witness_OutIsAppendOnly_noWord :
    (State.reset.cause = .none ∧ State.reset.host = [] ∧ step State.reset = .next State.reset) ∧
    (verified.setHost [.reset]).host = ([] : List CmdWord).map .command ++ .reset :: [] ∧
    haltedIllegal.cause ≠ .none ∧
    (haltedIllegal.setHost [.command 0x100#12, .reset]).host = [0x100#12].map .command ++ .reset :: [] :=
  ⟨⟨rfl, rfl, rfl⟩, rfl, by decide, rfl⟩

theorem witness_TableIsWrittenOnlyByTgenWhenEmpty :
    (State.reset.offerWord 0x100#12).cause = .none ∧ (State.reset.offerWord 0x100#12).host = .command 0x100#12 :: [] ∧
    step (State.reset.offerWord 0x100#12) = .next State.reset ∧
    ((0x100#12 : CmdWord) ≠ 0x500#12 ∨ (State.reset.offerWord 0x100#12).tstate ≠ .empty) :=
  ⟨rfl, rfl, rfl, .inl (by decide)⟩

/-- Each clause of AccIsWrittenBySeedAndUpdatesOnly has a word that falls under it. -/
theorem witness_AccIsWrittenBySeedAndUpdatesOnly :
    verified.TableInv ∧ verified.cause = .none ∧
    (nextOf (step (verified.offerWord 0x100#12))).map (·.acc) = some 0xFFFF#16 ∧
    step (verified.setHost [.command 0x256#12]) = exec (.updt 0x56#8) (verified.setHost []) ∧
    exec (.updt 0x56#8) verified = .next (verified.setAcc 0xE993#16) ∧
    (nextOf (step (verified.offerWord 0x600#12))).map (·.acc) = some 0x1234#16 := by
  have h : tableStep verified.acc (tableEntry (tableIndex verified.acc 0x56#8)) = 0xE993#16 := by decide +kernel
  exact ⟨witness_verified_inv, rfl, by decide, step_offered (by decide) rfl, h ▸ verified_updt 0x56#8,
    by decide⟩

theorem witness_EncodeOfDecodeIsTheWord : decode 0x2FF#12 = .ok (.updt 0xFF#8) := by decide

/-- A word that decodes, and the row it fits. -/
theorem witness_DecoderAgreesWithMatchAndMask :
    decode 0x2FF#12 = .ok (.updt 0xFF#8) ∧ (⟨"UPDT", 0x200#12, 0xF00#12⟩ : MatchRow) ∈ matchRows ∧
    (0x2FF#12 : CmdWord) &&& 0xF00#12 = 0x200#12 := by decide

/-- A reserved opcode at both ends of its range, and a non-zero field, meet the premise on the word; the words beside
them do not. -/
theorem witness_IllegalWordRaisesIllegalCmd :
    (haltedIllegal.setHost []).raise .illegalCmd = haltedIllegal ∧
    (State.reset.offerWord 0x700#12).cause = .none ∧ (State.reset.offerWord 0x700#12).host = .command 0x700#12 :: [] ∧
    ([0x000#12, 0x0FF#12, 0x700#12, 0xFFF#12, 0x101#12, 0x6FF#12, 0x100#12, 0x2FF#12, 0x600#12].map fun w : CmdWord =>
      decide ((w.toNat / 256 = 0 ∨ 7 ≤ w.toNat / 256) ∨ (w.toNat / 256 ∈ [1, 4, 5, 6] ∧ w.toNat % 256 ≠ 0))) =
      [true, true, true, true, true, true, false, false, false] := by
  refine ⟨rfl, rfl, rfl, by decide⟩

theorem witness_StepRunsTheDecodedInstruction :
    (State.reset.offerWord 0x100#12).halted = false ∧ (State.reset.offerWord 0x100#12).host = .command 0x100#12 :: [] ∧
    decode 0x100#12 = .ok .init := by decide

theorem witness_UpdtUsesAVerifiedTableOnly :
    verified.TableInv ∧ verified.tstate = .verified ∧
    verified.table.read (verified.acc.extractLsb' 0 8 ^^^ 0x56#8) = some 0xE981#16 ∧
    loaded.tstate ≠ .verified ∧ State.reset.tstate ≠ .verified :=
  ⟨witness_verified_inv, rfl, (fullTable_correct _).trans (by decide +kernel), by decide, by decide⟩

/-- A VERIFIED table that lacks the entry it reads, and a LOADED one whose lowest wrong entry is absent. -/
theorem witness_OnlyAnUnwrittenEntryStops :
    (mk 0#16 .verified []).table.read ((mk 0#16 .verified []).acc.extractLsb' 0 8 ^^^ 0#8) = none ∧
    (mk 0#16 .loaded [(0, 0#16)]).table.LowestWrong 1#8 ∧ (mk 0#16 .loaded [(0, 0#16)]).table.read 1#8 = none := by
  refine ⟨rfl, ⟨by decide, ?_⟩, rfl⟩
  intro j hj
  have : j = 0#8 := BitVec.eq_of_toNat_eq (by simp at hj ⊢; omega)
  subst this; decide +kernel

theorem witness_Reduce8IsEightLinearSteps : (0xFF00#16 : Word).extractLsb' 0 8 = 0#8 := by decide

theorem witness_UpdbRunsInEveryTableState : (mk 0x1234#16 .empty []).acc.extractLsb' 0 8 = 0x34#8 := by decide

theorem witness_TgenFillsTheTableOnce :
    State.reset.tstate = .empty ∧ State.reset.table.wf = true ∧ loaded.tstate ≠ .empty ∧ verified.tstate ≠ .empty := by
  decide

/-- A correct LOADED table; one whose lowest wrong entry is the first, and one where it is the second. -/
theorem witness_TverVerifiesOrHalts :
    State.reset.tstate = .empty ∧ loaded.tstate = .loaded ∧ loaded.table.Correct ∧ verified.tstate = .verified ∧
    (mk 0#16 .loaded [(0, 1#16)]).table.read 0#8 = some 1#16 ∧ 1#16 ≠ tableEntry 0#8 ∧
    (mk 0#16 .loaded [(0, 0#16), (1, 1#16)]).table.read 1#8 = some 1#16 ∧ 1#16 ≠ tableEntry 1#8 ∧
    ∀ j : Byte, j.toNat < (1#8 : Byte).toNat →
      (mk 0#16 .loaded [(0, 0#16), (1, 1#16)]).table.read j = some (tableEntry j) := by
  refine ⟨rfl, rfl, fullTable_correct, rfl, rfl, by decide +kernel, rfl, by decide +kernel, ?_⟩
  intro j hj
  have : j = 0#8 := BitVec.eq_of_toNat_eq (by simp at hj ⊢; omega)
  subst this; decide +kernel

/-- Each command has a next state from a state at hand. -/
theorem witness_FrameOfSessionAndUpdateCommands :
    exec .init State.reset = .next State.reset ∧ (nextOf (exec (.updb 0#8) State.reset)).isSome = true ∧
    (nextOf (exec (.updt 0#8) State.reset)).isSome = true ∧ (nextOf (exec .emit State.reset)).isSome = true ∧
    (nextOf (exec (.updt 0#8) verified)).isSome = true :=
  ⟨rfl, by decide, by decide, by decide, by rw [verified_updt]; rfl⟩

theorem witness_FrameOfTableCommands :
    (nextOf (exec .tgen State.reset)).isSome = true ∧ (nextOf (exec .tgen loaded)).isSome = true ∧
    (nextOf (exec .tver State.reset)).isSome = true ∧ (nextOf (exec .tver verified)).isSome = true ∧
    (nextOf (exec .tver loaded)).isSome = true :=
  ⟨by decide, by decide, by decide, by decide, by rw [loaded_tver]; rfl⟩

/-- Each fault is raised from a state with the table invariant. -/
theorem witness_FaultsAreRaisedExactlyWhenStated :
    loaded.TableInv ∧ loaded.cause = .none ∧
    (nextOf (step (loaded.offerWord 0x000#12))).map (·.cause) = some .illegalCmd ∧
    (nextOf (step (loaded.offerWord 0x200#12))).map (·.cause) = some .tableNotReady ∧
    (nextOf (step (State.reset.offerWord 0x600#12))).map (·.cause) = some .tableNotReady ∧
    (nextOf (step (State.resetOf (.embedded badRom) [.command 0x600#12]))).map (fun t => (t.cause, t.fidx)) =
      some (.tableMismatch, 0#8) :=
  ⟨witness_loaded_inv, rfl, by decide, by decide, by decide, by decide +kernel⟩

theorem witness_FaultEntryWritesCauseAndFidxOnly :
    (State.reset.offerWord 0x000#12).cause = .none ∧
    step (State.reset.offerWord 0x000#12) = .next haltedIllegal ∧ haltedIllegal.cause ≠ .none :=
  ⟨rfl, rfl, by decide⟩

/-- A halted engine with its ports, ready but for the halt. -/
def haltedPorts : PortState := { core := haltedIllegal, phase := .ready, heard := [], mark := 0, edges := 0 }

theorem witness_halted_inv : haltedIllegal.Inv where
  table :=
    { canonical := rfl
      empty_unwritten := fun _ => ⟨rfl, rfl⟩
      generated_correct := fun _ h => absurd rfl h
      embedded_rom := fun _ h => nomatch h
      verified_correct := fun h => nomatch h }
  fault := { fidx_zero := fun _ => rfl, mismatch_lowest := fun h => nomatch h }
  out_even := rfl

theorem witness_HaltedEngineIsFrozenAtThePorts :
    haltedPorts.Inv ∧ haltedPorts.core.cause ≠ .none ∧ (⟨false, true, 0x100#12, true⟩ : PinsIn).rst = false := by
  refine ⟨⟨witness_halted_inv, rfl, Nat.le_refl _, by decide, fun _ => rfl, ?_, ?_⟩, by decide, rfl⟩
  · intro _ _ h; cases h
  · intro _ _ h; cases h

theorem witness_HaltedEngineStepsByResetOnly :
    haltedIllegal.cause ≠ .none ∧ (∀ a ∈ (haltedIllegal.setHost [.command 0x100#12]).host, a ≠ .reset) ∧
    (haltedIllegal.setHost [.command 0x100#12, .reset, .command 0x400#12]).host =
      [0x100#12].map .command ++ .reset :: [.command 0x400#12] := by
  refine ⟨by decide, by decide, rfl⟩

/-- An EMBEDDED build has the table invariant at reset, whatever its ROM is. -/
theorem witness_embedded_table_inv (rom : Vector Word 256) (host : List HostAction) :
    (State.resetOf (.embedded rom) host).TableInv where
  canonical := Memory.wf_ofRom rom
  empty_unwritten h := nomatch h
  generated_correct h := nomatch h
  embedded_rom _ h := by cases h; exact ⟨nofun, rfl⟩
  verified_correct h := nomatch h

/-- The clause on EMBEDDED builds is met by a step to TableMismatch at index 0. -/
theorem witness_MismatchNeedsADefectiveRom_embedded :
    (State.resetOf (.embedded badRom) [.command 0x600#12]).TableInv ∧
    (State.resetOf (.embedded badRom) [.command 0x600#12]).cause ≠ .tableMismatch ∧
    (nextOf (step (State.resetOf (.embedded badRom) [.command 0x600#12]))).map (fun t => (t.cause, t.fidx)) =
      some (.tableMismatch, 0#8) :=
  ⟨witness_embedded_table_inv _ _, nofun, by decide +kernel⟩

theorem witness_MismatchNeedsADefectiveRom :
    loaded.TableInv ∧ loaded.build = .generated ∧ loaded.cause ≠ .tableMismatch ∧ step loaded = .next loaded ∧
    badRom[(0#8 : Byte).toNat]'(0#8 : Byte).isLt ≠ tableEntry 0#8 :=
  ⟨witness_loaded_inv, rfl, by decide, rfl, by decide +kernel⟩

/-- Wrong at the first index, and at the second; from a state that is halted already. -/
theorem witness_DefectiveRomFaultsAfterEveryReset :
    halted.build = .embedded badRom ∧ badRom[(0#8 : Byte).toNat]'(0#8 : Byte).isLt ≠ tableEntry 0#8 ∧
    badRom1[(1#8 : Byte).toNat]'(1#8 : Byte).isLt ≠ tableEntry 1#8 ∧
    badRom1[(0#8 : Byte).toNat]'(0#8 : Byte).isLt = tableEntry 0#8 ∧
    (halted.setHost [.reset, .command 0x500#12, .command 0x600#12]).host =
      .reset :: .command 0x500#12 :: .command 0x600#12 :: [] :=
  ⟨rfl, by decide +kernel, by decide +kernel, by decide +kernel, rfl⟩

theorem witness_EveryStepKeepsTheInvariant :
    (haltedIllegal.setHost [.reset]).Inv ∧
    step (haltedIllegal.setHost [.reset]) = .next (State.resetOf .generated []) := by
  obtain ⟨⟨a, b, c, d, e⟩, ⟨f, g⟩, k⟩ := witness_halted_inv
  exact ⟨⟨⟨a, b, c, d, e⟩, ⟨f, g⟩, k⟩, rfl⟩

theorem witness_RunningEngineAlwaysHasANextState : verified.TableInv ∧ verified.halted = false :=
  ⟨witness_verified_inv, by decide⟩

theorem witness_NoStepChangesTheBuild : step halted = .fault .halted ∧ step State.reset = .next State.reset :=
  ⟨rfl, rfl⟩

theorem witness_UnspecifiedTableContentsAreNeverObserved : (mk 0#16 .empty [(0, 7#16)]).tstate = .empty := rfl

theorem witness_BitwiseComputationGivesTheCrc : (mk 0x1234#16 .empty []).cause = .none := rfl

/-- Both clauses of TableComputationGivesTheCrc. -/
theorem witness_TableComputationGivesTheCrc :
    verified.TableInv ∧ verified.cause = .none ∧ verified.tstate = .verified ∧
    loaded.cause = .none ∧ loaded.tstate ≠ .verified ∧ ([0#8] : List Byte) ≠ [] :=
  ⟨witness_verified_inv, rfl, rfl, rfl, by decide, by decide⟩

theorem witness_StrategiesAgreeOnEverySequence :
    verified.TableInv ∧ verified.tstate = .verified ∧ verified.cause = .none ∧
    [true, false].length = ([0x31#8, 0x32#8] : List Byte).length := ⟨witness_verified_inv, rfl, rfl, rfl⟩

/-- The ROM that holds the correct values. -/
def goodRom : Vector Word 256 := Vector.ofFn fun k => tableEntry (BitVec.ofNat 8 k.val)

theorem goodRom_correct (i : Byte) : goodRom[i.toNat]'i.isLt = tableEntry i := by
  simp only [goodRom, Vector.getElem_ofFn, BitVec.ofNat_toNat, BitVec.setWidth_eq]

/-- The LOADED table that TGEN leaves after reset, with what the host still does. -/
def booting (rest : List HostAction) : State := ((State.reset.setHost rest).setTable fullTable).setTState .loaded

theorem fullTable_eq : fullTable = Memory.fill tableEntry [] tableIndices := by unfold fullTable; rfl

theorem tgen_of_unwritten {s : State} (h : s.tstate = .empty) (ht : s.table = []) :
    exec .tgen s = .next ((s.setTable fullTable).setTState .loaded) := by
  rw [tgen_of_empty h, ht, ← fullTable_eq]

theorem booting_tgen (rest : List HostAction) :
    step (State.reset.setHost (.command 0x500#12 :: rest)) = .next (booting rest) :=
  (step_offered test_decode_tgen rfl).trans (tgen_of_unwritten rfl rfl)

/-- BOOT from the reset state of a GENERATED build verifies the table; a ROM that is correct exists. -/
theorem witness_BootVerifiesTheTable :
    step (State.reset.setHost [.command 0x500#12, .command 0x600#12]) = .next (booting [.command 0x600#12]) ∧
    step (booting [.command 0x600#12]) = .next ((booting []).setTState .verified) ∧
    ∀ i : Byte, goodRom[i.toNat]'i.isLt = tableEntry i :=
  ⟨booting_tgen _, (step_offered (s := booting []) (rest := []) test_decode_tver rfl).trans
    (tver_of_match rfl fullTable_verifies), goodRom_correct⟩

theorem witness_ResultDependsOnTheDataAlone :
    (mk 0x1234#16 .empty []).cause = .none ∧ haltedIllegal.cause ≠ .none ∧
    verified.TableInv ∧ verified.cause = .none ∧ verified.tstate = .verified :=
  ⟨rfl, by decide, witness_verified_inv, rfl, rfl⟩

/-- Both ends of a run occur: the empty list completes, one illegal word halts. -/
theorem witness_EveryRunCompletesOrHalts :
    Completed [] (State.resetOf .generated []) (State.resetOf .generated []) ∧
    HaltedAfter 1 [0x000#12] (State.resetOf .generated []) haltedIllegal :=
  ⟨⟨rfl, rfl, rfl⟩, by decide, rfl, by decide, rfl, rfl⟩

/-- An engine that is ready, with its ports. -/
def readyPorts : PortState := { core := State.reset, phase := .ready, heard := [], mark := 0, edges := 0 }

/-- An engine that delivers the second byte of an EMIT of 0xFFFF. -/
def deliveringPorts : PortState :=
  { core := { State.reset with out := [0xFF#8, 0xFF#8] }, phase := .delivering [0xFF#8] 0, heard := [0xFF#8],
    mark := 0, edges := 9 }

/-- A word is accepted by a ready engine, and none by an engine that delivers. -/
theorem witness_CommandHandshake :
    readyPorts.accepts ⟨false, true, 0x100#12, false⟩ = some 0x100#12 ∧
    deliveringPorts.phase.waiting ≠ [] ∧ deliveringPorts.cmdReady false = false ∧
    haltedPorts.cmdReady false = false ∧ (haltedPorts.pins false).cmdReady = false ∧
    readyPorts.core.cause = .none ∧ readyPorts.phase = .ready ∧ (readyPorts.pins false).cmdReady = true :=
  ⟨by decide, by decide, by decide, by decide, rfl, rfl, rfl, rfl⟩

theorem witness_delivering_inv : deliveringPorts.Inv := by
  refine ⟨⟨⟨rfl, fun _ => ⟨rfl, rfl⟩, fun _ h => absurd rfl h, fun _ h => (nomatch h), fun h => (nomatch h)⟩,
    ⟨fun _ => rfl, fun h => (nomatch h)⟩, rfl⟩, rfl, by decide, by decide, ?_, ?_, ?_⟩
  · intro h; exact absurd h (by decide)
  · intro bytes n h; cases h; decide
  · intro _ _ h; cases h

/-- A byte is offered; it is taken with out_ready and stays offered without it. -/
theorem witness_OutputHandshake :
    deliveringPorts.Inv ∧ deliveringPorts.takes ⟨false, false, 0#12, true⟩ = some 0xFF#8 ∧
    deliveringPorts.edge ⟨false, false, 0#12, true⟩ =
      .next (deliveringPorts.deliver 0xFF#8 [] true) ∧
    deliveringPorts.outValid false = true ∧
    deliveringPorts.edge ⟨false, false, 0#12, false⟩ = .next (deliveringPorts.deliver 0xFF#8 [] false) ∧
    readyPorts.phase.waiting = [] :=
  ⟨witness_delivering_inv, by decide, rfl, by decide, rfl, rfl⟩

theorem witness_EveryEdgeKeepsThePortInvariant :
    deliveringPorts.Inv ∧ deliveringPorts.edge ⟨true, false, 0#12, false⟩ = .next deliveringPorts.resetEdge :=
  ⟨witness_delivering_inv, rfl⟩

/-- An engine that will offer the second byte of an EMIT of 0xFFFF after one more edge. -/
def waitingPorts : PortState := { deliveringPorts with phase := .delivering [0xFF#8] 1 }

/-- A byte that waits and is not offered yet: none is taken although out_ready is 1. -/
theorem witness_OutputHandshake_waiting :
    waitingPorts.Inv ∧ waitingPorts.takes ⟨false, false, 0#12, true⟩ = none ∧ waitingPorts.phase.waiting ≠ [] ∧
    waitingPorts.edge ⟨false, false, 0#12, true⟩ = .next (waitingPorts.goOn (.delivering [0xFF#8] 0)) := by
  obtain ⟨a, b, c, d, e, _, _⟩ := witness_delivering_inv
  refine ⟨⟨a, b, c, d, fun h => absurd h (by decide), ?_, ?_⟩, by decide, by decide, rfl⟩
  · intro bytes n h; cases h; decide
  · intro _ _ h; cases h

/-- A running engine without a command in progress accepts a word after some edges without reset. -/
theorem accepts_after_recovery (p : PortState) (hc : p.core.halted = false)
    (h : p.phase = .ready ∨ ∃ n, p.phase = .recovering n) :
    ∃ ins q, (∀ j ∈ ins, j.rst = false) ∧ PortState.run ins p = .next q ∧
      PortState.acceptedWords ins p = [0x100#12] := by
  have ready (p : PortState) (hc : p.core.halted = false) (h : p.phase = .ready) :
      ∃ ins q, (∀ j ∈ ins, j.rst = false) ∧ PortState.run ins p = .next q ∧
        PortState.acceptedWords ins p = [0x100#12] := by
    have ha : p.accepts ⟨false, true, 0x100#12, false⟩ = some 0x100#12 := by
      simp [PortState.accepts, PortState.cmdReady, h, hc]
    have he : p.edge ⟨false, true, 0x100#12, false⟩ = .next (p.goOn (.running 0x100#12 (Config.runEdges p.edges))) := by
      simp [PortState.edge, PortState.runEdge, h, ha]
    exact ⟨[⟨false, true, 0x100#12, false⟩], _, by simp, PortState.run_cons [] he,
      by rw [PortState.acceptedWords_cons [] he, ha]; rfl⟩
  rcases h with h | ⟨n, h⟩
  · exact ready p hc h
  · induction n generalizing p with
    | zero =>
      have he : p.edge ⟨false, false, 0#12, false⟩ = .next (p.goOn .ready) := by
        simp [PortState.edge, PortState.runEdge, h]
      obtain ⟨ins, q, h1, h2, h3⟩ := ready (p.goOn .ready) hc rfl
      exact ⟨_ :: ins, q, by simpa using h1, (PortState.run_cons ins he).trans h2,
        by rw [PortState.acceptedWords_cons ins he, h3, p.accepts_none _ (by simp [h])]; rfl⟩
    | succ n ih =>
      have he : p.edge ⟨false, false, 0#12, false⟩ = .next (p.goOn (.recovering n)) := by
        simp [PortState.edge, PortState.runEdge, h]
      obtain ⟨ins, q, h1, h2, h3⟩ := ih (p.goOn (.recovering n)) hc rfl
      exact ⟨_ :: ins, q, by simpa using h1, (PortState.run_cons ins he).trans h2,
        by rw [PortState.acceptedWords_cons ins he, h3, p.accepts_none _ (by simp [h])]; rfl⟩

/-- Runs at the ports with an accepted word: from reset, and after a reset that cut an EMIT short. -/
theorem witness_PortBehaviourIsARunOfSteps :
    (∃ ins q, (∀ j ∈ ins, j.rst = false) ∧ PortState.run ins (PortState.resetOf .generated 0) = .next q ∧
      PortState.acceptedWords ins (PortState.resetOf .generated 0) = [0x100#12]) ∧
    (∃ ins q, (∀ j ∈ ins, j.rst = false) ∧
      PortState.run (⟨true, false, 0#12, false⟩ :: ins) deliveringPorts = .next q ∧
      PortState.acceptedWords (⟨true, false, 0#12, false⟩ :: ins) deliveringPorts = [0x100#12]) := by
  refine ⟨accepts_after_recovery _ (by decide) (recoverPhase_cases _), ?_⟩
  have he : deliveringPorts.edge ⟨true, false, 0#12, false⟩ = .next deliveringPorts.resetEdge := rfl
  obtain ⟨ins, q, h1, h2, h3⟩ := accepts_after_recovery deliveringPorts.resetEdge (by decide) (recoverPhase_cases _)
  exact ⟨ins, q, h1, (PortState.run_cons ins he).trans h2, by rw [PortState.acceptedWords_cons ins he, h3]; rfl⟩

theorem witness_IdleEngineKeepsItsState :
    State.reset.cause = .none ∧ State.reset.host = [] ∧
    readyPorts.phase = .ready ∧ readyPorts.accepts ⟨false, false, 0x100#12, true⟩ = none := by decide

/-- While rst is 1 out_valid is 0, and out_data is the free value although a byte waits (log entry 10). -/
theorem test_out_data_during_reset :
    (deliveringPorts.pins true).outData = Config.idleOutData 9 ∧ (deliveringPorts.pins false).outData = 0xFF#8 :=
  ⟨rfl, rfl⟩

theorem witness_EveryCommandEndsAfterFinitelyManyEdges : deliveringPorts.Inv ∧
    ∀ i ∈ [(⟨false, false, 0#12, true⟩ : PinsIn)], i.rst = false ∧ i.outReady = true :=
  ⟨witness_delivering_inv, by decide⟩

theorem witness_EmptyInputEmitsTheSeed : haltedIllegal.cause ≠ .none ∧ verified.cause = .none := by decide

theorem witness_MidSequenceEmitReportsThePrefix : verified.cause = .none := rfl

theorem witness_Step1BitsAndLinearity : 1 ≤ 1 ∧ 1 ≤ 12 ∧ 1 ≤ 12 ∧ 12 ≤ 12 := by decide

end Sys2Proof.Tests
end

section
/-! PROOFS. What an accepted word keeps (the build, what the host does next), and the settled statements about single
steps. -/

namespace Sys2Proof.Machine

/-- A word that decodes is accepted by executing its instruction. -/
theorem acceptWord_ok {w : CmdWord} {i : Instr} (h : decode w = .ok i) (s : State) : acceptWord w s = exec i s := by
  simp [acceptWord, h]

/-- A word that does not decode is accepted by raising IllegalCmd (R142). -/
theorem acceptWord_error {w : CmdWord} {e : Illegal} (h : decode w = .error e) (s : State) :
    acceptWord w s = .next (s.raise .illegalCmd) := by
  simp [acceptWord, h]

/-- No accepted word changes the build. -/
theorem acceptWord_build {w : CmdWord} {s t : State} (h : acceptWord w s = .next t) : t.build = s.build := by
  rcases acceptWord_cases w s with ⟨i, _, ha⟩ | ⟨e, _, ha⟩
  · exact exec_build (ha.symm.trans h)
  · cases ha.symm.trans h; rfl

/-- No accepted word changes what the host does next. -/
theorem acceptWord_host {w : CmdWord} {s t : State} (h : acceptWord w s = .next t) : t.host = s.host := by
  rcases acceptWord_cases w s with ⟨i, _, ha⟩ | ⟨e, _, ha⟩
  · exact exec_host (ha.symm.trans h)
  · cases ha.symm.trans h; rfl

/-- Loading a table and setting the host's list commute. -/
theorem State.setHost_loadTable (s : State) (l : List HostAction) (m : Memory) :
    ((s.setHost l).setTable m).setTState .loaded = ((s.setTable m).setTState .loaded).setHost l := rfl

/-- A command neither reads nor writes what the host does next. -/
theorem exec_setHost {i : Instr} {s t : State} (h : exec i s = .next t) (l : List HostAction) :
    exec i (s.setHost l) = .next (t.setHost l) := by
  cases i with
  | init => cases h; rfl
  | emit => cases h; rfl
  | updb b => cases h; rfl
  | updt b =>
    simp only [exec, execUpdt, State.setHost_tstate, State.setHost_table, State.setHost_acc] at h ⊢
    cases hs : s.tstate <;> simp only [hs] at h ⊢
    case verified => cases hr : s.table.read (tableIndex s.acc b) <;> simp only [hr] at h ⊢ <;> cases h; rfl
    all_goals cases h; rfl
  | tgen =>
    simp only [exec, execTgen, State.setHost_tstate] at h ⊢
    cases hs : s.tstate <;> simp only [hs] at h ⊢
    case empty => cases h; exact congrArg _ (State.setHost_loadTable s l _)
    all_goals cases h; rfl
  | tver =>
    simp only [exec, execTver, State.setHost_tstate, State.setHost_table] at h ⊢
    cases hs : s.tstate <;> simp only [hs] at h ⊢
    case loaded => cases hv : s.table.verify tableIndices <;> simp only [hv] at h ⊢ <;> cases h <;> rfl
    all_goals cases h; rfl

/-- Accepting a word neither reads nor writes what the host does next. -/
theorem acceptWord_setHost {w : CmdWord} {s t : State} (h : acceptWord w s = .next t) (l : List HostAction) :
    acceptWord w (s.setHost l) = .next (t.setHost l) := by
  cases hd : decode w with
  | ok i =>
    rw [acceptWord_ok hd] at h ⊢
    exact exec_setHost h l
  | error e =>
    rw [acceptWord_error hd] at h ⊢
    cases h; rfl

/-- Settles O40: an accepted word keeps the build, and a reset takes the reset state of the same build. -/
theorem noStepChangesTheBuild : Obligations.NoStepChangesTheBuild := by
  intro s t h
  rcases step_cases h with ⟨-, -, rfl⟩ | ⟨w, rest, -, -, ha⟩ | ⟨rest, -, -, rfl⟩ | ⟨ws, rest, -, -, rfl⟩
  · rfl
  · exact (acceptWord_build ha :)
  · rfl
  · rfl

/-- Settles O14: a running engine accepts the word at the head, and accepting it is executing what it decodes to. -/
theorem stepRunsTheDecodedInstruction : Obligations.StepRunsTheDecodedInstruction := by
  intro s w rest i hrun hhost hdecode
  rw [step_command ((State.halted_eq_false s).mp hrun) hhost]
  exact acceptWord_ok hdecode _

end Sys2Proof.Machine
end

section
/-! PROOFS. The ports refine the transaction level (R8, R34): a run at the ports is a run of one step for each command
that took effect and each reset. -/

namespace Sys2Proof.Machine

@[simp] theorem commandWords_nil : commandWords [] = [] := rfl

@[simp] theorem commandWords_command (w : CmdWord) (acts : List HostAction) :
    commandWords (.command w :: acts) = w :: commandWords acts := rfl

@[simp] theorem commandWords_reset (acts : List HostAction) :
    commandWords (.reset :: acts) = commandWords acts := rfl

@[simp] theorem commandWords_append (a b : List HostAction) :
    commandWords (a ++ b) = commandWords a ++ commandWords b :=
  List.filterMap_append

/-- Actions without a reset are their command words. -/
theorem eq_map_commandWords {acts : List HostAction} (h : .reset ∉ acts) : acts = (commandWords acts).map .command := by
  induction acts with
  | nil => rfl
  | cons a acts ih =>
    rw [List.mem_cons, not_or] at h
    cases a with
    | command w => simpa using ih h.2
    | reset => exact absurd rfl h.1

/-- From `s` one step for each listed action leads to `t`, whatever the host does afterwards, and neither state says
anything else about the host. -/
structure State.RunsOver (s : State) (acts : List HostAction) (t : State) : Prop where
  run : ∀ l, runSteps acts.length (s.setHost (acts ++ l)) = .next (t.setHost l)
  host : t.host = s.host

theorem State.RunsOver.nil (s : State) : s.RunsOver [] s := ⟨fun _ => rfl, rfl⟩

theorem State.RunsOver.append {s t u : State} {a b : List HostAction} (h : s.RunsOver a t) (h' : t.RunsOver b u) :
    s.RunsOver (a ++ b) u where
  run l := by
    rw [List.length_append, List.append_assoc, runSteps_add _ _ (h.run (b ++ l))]
    exact h'.run l
  host := h'.host.trans h.host

/-- A run over actions, with the host's list the states themselves have. -/
theorem State.RunsOver.runSteps_eq {s t : State} {acts : List HostAction} (h : s.RunsOver acts t) :
    runSteps acts.length (s.setHost (acts ++ s.host)) = .next t := by
  rw [h.run, ← h.host]; rfl

/-- A running engine's acceptance of a word is a run of one step. -/
theorem State.RunsOver.command {s t : State} {w : CmdWord} (hc : s.cause = .none) (h : acceptWord w s = .next t) :
    s.RunsOver [.command w] t where
  run l := runSteps_succ 0 <| (step_command (s := s.setHost (.command w :: l)) hc rfl).trans (acceptWord_setHost h l)
  host := acceptWord_host h

/-- A reset that is the host's next action is taken, by a running and by a halted engine alike (R160). -/
theorem step_reset {s : State} {rest : List HostAction} (h : s.host = .reset :: rest) :
    step s = .next (State.resetOf s.build rest) := by
  by_cases hc : s.cause = .none
  · rw [step_running hc, runStep, h]; rfl
  · rw [step_halted hc, haltedStep, h]; rfl

/-- A reset is a run of one step, from every state. -/
theorem State.RunsOver.reset (s : State) : s.RunsOver [.reset] s.takeReset where
  run _ := runSteps_succ 0 (step_reset rfl)
  host := rfl

@[simp] theorem PortState.deliver_core (p : PortState) (b : Byte) (bs : List Byte) (r : Bool) :
    (p.deliver b bs r).core = p.core := by
  cases r <;> rfl

/-- No command is in progress after an edge at which a byte is offered, taken or not. -/
theorem PortState.deliver_inProgress {p : PortState} (h : p.phase.inProgress = []) (b : Byte) (bs : List Byte)
    (r : Bool) : (p.deliver b bs r).phase.inProgress = [] := by
  cases r with
  | true => exact phaseAfter_inProgress _ _
  | false => exact h

/-- What an edge does to the engine's state and to the word in progress: nothing but, possibly, an acceptance; the
effect of the word in progress; or a reset. -/
inductive PortState.CoreEffect (p : PortState) (i : PinsIn) (p' : PortState) : Prop where
  | silent : p'.core = p.core → p'.phase.inProgress = p.phase.inProgress ++ (p.accepts i).toList → CoreEffect p i p'
  | effect (w : CmdWord) : p.phase.inProgress = [w] → acceptWord w p.core = .next p'.core → p.accepts i = none →
      p'.phase.inProgress = [] → CoreEffect p i p'
  | reset : i.rst = true → p'.core = p.core.takeReset → p.accepts i = none → p'.phase.inProgress = [] →
      CoreEffect p i p'

/-- Nothing is accepted at an edge with rst = 1 (R160). -/
theorem PortState.accepts_of_rst (p : PortState) {i : PinsIn} (h : i.rst = true) : p.accepts i = none := by
  simp [PortState.accepts, PortState.cmdReady, h]

theorem PortState.edge_coreEffect {p p' : PortState} {i : PinsIn} (h : p.edge i = .next p') : p.CoreEffect i p' := by
  rcases PortState.edge_cases h with ⟨hr, rfl⟩ |
    ⟨-, ⟨w, ha, rfl⟩ | ⟨w, t, hp, ht, rfl⟩ | ⟨b, bs, hp, rfl⟩ | ⟨ph, hw, rfl⟩⟩
  · exact .reset hr rfl (p.accepts_of_rst hr) (recoverPhase_inProgress _)
  · refine .silent rfl ?_
    rw [ha, (PortState.accepts_ready ha).1]; rfl
  · exact .effect w (by rw [hp]; rfl) ht (p.accepts_none i (by simp [hp])) (phaseAfter_inProgress _ _)
  · have hnone : p.phase.inProgress = [] := by rw [hp]; rfl
    refine .silent (p.deliver_core _ _ _) ?_
    rw [PortState.deliver_inProgress hnone, hnone, p.accepts_none i (by simp [hp])]; rfl
  · refine .silent rfl ?_
    rw [hw.accepts]
    exact hw.inProgress.trans (List.append_nil _).symm

/-- While a command is in progress the engine is not halted (R34). -/
def PortState.BusyNotHalted (p : PortState) : Prop := p.phase.inProgress ≠ [] → p.core.cause = .none

/-- Where nothing is in progress there is nothing to show. -/
theorem PortState.BusyNotHalted.of_idle {p : PortState} (h : p.phase.inProgress = []) : p.BusyNotHalted :=
  fun hne => absurd h hne

theorem PortState.BusyNotHalted.edge {p p' : PortState} {i : PinsIn} (hb : p.BusyNotHalted)
    (h : p.edge i = .next p') : p'.BusyNotHalted := by
  cases PortState.edge_coreEffect h with
  | silent hcore hprog =>
    intro hne
    rw [hcore]
    cases ha : p.accepts i with
    | none => exact hb (by simpa [hprog, ha] using hne)
    | some w => exact (State.halted_eq_false _).mp (PortState.accepts_ready ha).2
  | effect _ _ _ _ hprog => exact .of_idle hprog
  | reset _ _ _ hprog => exact .of_idle hprog

/-- The edges at which the inputs `ins` stand, the words `accepted` being accepted at them, lead from `p` to `p'` as the
transaction level does over `acts`: every command of `acts` was in progress or accepted, in that order, a word that is
still in progress comes last, and without a reset no other word was. -/
structure PortState.Refines (p : PortState) (ins : List PinsIn) (accepted : List CmdWord) (acts : List HostAction)
    (p' : PortState) : Prop where
  run : p.core.RunsOver acts p'.core
  rst_of_reset : .reset ∈ acts → ∃ i ∈ ins, i.rst = true
  sublist : (commandWords acts ++ p'.phase.inProgress).Sublist (p.phase.inProgress ++ accepted)
  exact_words : .reset ∉ acts → p.phase.inProgress ++ accepted = commandWords acts ++ p'.phase.inProgress

theorem PortState.Refines.nil (p : PortState) : p.Refines [] [] [] p where
  run := .nil _
  rst_of_reset := List.not_mem_nil.elim
  sublist := by simp
  exact_words _ := by simp

theorem PortState.Refines.append {p q r : PortState} {ins ins' : List PinsIn} {ws ws' : List CmdWord}
    {a b : List HostAction} (h : p.Refines ins ws a q) (h' : q.Refines ins' ws' b r) :
    p.Refines (ins ++ ins') (ws ++ ws') (a ++ b) r where
  run := h.run.append h'.run
  rst_of_reset hm := by
    rcases List.mem_append.mp hm with hm | hm
    · obtain ⟨i, hi, hr⟩ := h.rst_of_reset hm
      exact ⟨i, List.mem_append_left _ hi, hr⟩
    · obtain ⟨i, hi, hr⟩ := h'.rst_of_reset hm
      exact ⟨i, List.mem_append_right _ hi, hr⟩
  sublist := by
    have h1 := h'.sublist.append_left (commandWords a)
    have h2 := h.sublist.append_right ws'
    simp only [commandWords_append, List.append_assoc] at h1 h2 ⊢
    exact h1.trans h2
  exact_words hn := by
    rw [List.mem_append, not_or] at hn
    rw [← List.append_assoc, h.exact_words hn.1, List.append_assoc, h'.exact_words hn.2, commandWords_append,
      List.append_assoc]

/-- One edge refines no step, the step over the word in progress, or the step over a reset. -/
theorem PortState.edge_refines {p p' : PortState} {i : PinsIn} (hb : p.BusyNotHalted) (h : p.edge i = .next p') :
    ∃ acts, p.Refines [i] (p.accepts i).toList acts p' := by
  cases PortState.edge_coreEffect h with
  | silent hcore hprog =>
    exact ⟨[], hcore ▸ .nil _, List.not_mem_nil.elim, by simp [hprog], fun _ => by simp [hprog]⟩
  | effect w hw ht ha hprog =>
    have hc : p.core.cause = .none := hb (by simp [hw])
    exact ⟨[.command w], .command hc ht, by simp, by simp [hw, ha, hprog], fun _ => by simp [hw, ha, hprog]⟩
  | reset hr hcore ha hprog =>
    exact ⟨[.reset], hcore ▸ .reset _, fun _ => ⟨i, by simp, hr⟩, by simp [hprog], fun hn => absurd (by simp) hn⟩

/-- A run whose first edge is given has that edge and a run from where it leads. -/
theorem PortState.run_cons_next {p p' : PortState} {i : PinsIn} {ins : List PinsIn}
    (h : PortState.run (i :: ins) p = .next p') : ∃ q, p.edge i = .next q ∧ PortState.run ins q = .next p' := by
  cases he : p.edge i with
  | next q => exact ⟨q, rfl, (PortState.run_cons ins he).symm.trans h⟩
  | fault f => simp [PortState.run, he] at h
  | refused r => simp [PortState.run, he] at h

/-- A run at the ports refines a run of steps. -/
theorem PortState.run_refines {p p' : PortState} {ins : List PinsIn} (hb : p.BusyNotHalted)
    (h : PortState.run ins p = .next p') : ∃ acts, p.Refines ins (PortState.acceptedWords ins p) acts p' := by
  induction ins generalizing p with
  | nil => cases h; exact ⟨[], .nil _⟩
  | cons i ins ih =>
    obtain ⟨q, he, hrun⟩ := PortState.run_cons_next h
    obtain ⟨a, ha⟩ := PortState.edge_refines hb he
    obtain ⟨b, hb'⟩ := ih (hb.edge he) hrun
    rw [PortState.acceptedWords_cons ins he]
    exact ⟨a ++ b, ha.append hb'⟩

/-- Inputs without rst = 1 stand for actions without a reset. -/
theorem PortState.Refines.no_reset {p p' : PortState} {ins : List PinsIn} {ws : List CmdWord} {acts : List HostAction}
    (h : p.Refines ins ws acts p') (hr : ∀ i ∈ ins, i.rst = false) : .reset ∉ acts := by
  intro hm
  obtain ⟨i, hi, ht⟩ := h.rst_of_reset hm
  exact absurd ht (by simp [hr i hi])

/-- Settles O56: an induction over the edges, each of which refines at most one step; after a reset nothing is in
progress (R160), so the words accepted since are exactly those of the steps and the one in progress. An EMIT's bytes
are in OUT at the edge of its effect (log entry 11), so the edges that deliver them refine no step. -/
theorem portBehaviourIsARunOfSteps : Obligations.PortBehaviourIsARunOfSteps := by
  constructor
  · intro build edges ins p hrun
    have hidle : (PortState.resetOf build edges).phase.inProgress = [] := recoverPhase_inProgress edges
    obtain ⟨acts, hacts⟩ := PortState.run_refines (.of_idle hidle) hrun
    have hsteps : runSteps acts.length (State.resetOf build (acts ++ [])) = .next p.core := hacts.run.runSteps_eq
    rw [List.append_nil] at hsteps
    have hsub := hacts.sublist
    rw [hidle] at hsub
    refine ⟨acts, hsteps, (List.sublist_append_left _ _).trans hsub, fun hrst => ?_⟩
    have hnone := hacts.no_reset hrst
    have hexact := hacts.exact_words hnone
    rw [hidle] at hexact
    exact ⟨eq_map_commandWords hnone, hexact⟩
  · intro q p i ins hi hins hrun
    obtain ⟨q', he, hrun⟩ := PortState.run_cons_next hrun
    obtain rfl : q.resetEdge = q' := by simpa [PortState.edge, hi] using he
    have hidle : q.resetEdge.phase.inProgress = [] := recoverPhase_inProgress _
    obtain ⟨acts, hacts⟩ := PortState.run_refines (.of_idle hidle) hrun
    have hnone := hacts.no_reset hins
    have hexact := hacts.exact_words hnone
    have hsteps := hacts.run.runSteps_eq
    rw [hidle] at hexact
    rw [eq_map_commandWords hnone, List.length_map] at hsteps
    refine ⟨commandWords acts, hsteps, ?_⟩
    rw [PortState.acceptedWords_cons ins he, q.accepts_of_rst hi]
    exact hexact

end Sys2Proof.Machine
end

section
/-! PROOFS. The encoder undoes the decoder, so that an instruction has one word; and everything an accepted word can
do, said once. -/

namespace Sys2Proof

/-- A word is its opcode followed by its argument, so a format-B word is rebuilt from the two (R60, R62). -/
theorem formatB_of_fields {w : CmdWord} {op : BitVec 4} (hop : opField w = op) : formatB op (argField w) = w := by
  subst hop
  exact BitVec.extractLsb'_append_extractLsb' (w := 4) (len := 8)

/-- A format-Z word that decodes has argument zero, so it is rebuilt from its opcode (R61, R66). -/
theorem formatZ_of_decodeZ {w : CmdWord} {op : BitVec 4} {i j : Instr} (hop : opField w = op)
    (h : decodeZ (argField w) j = .ok i) : i = j ∧ formatZ op = w := by
  unfold decodeZ at h
  split at h
  · next harg =>
    cases h
    have hw := formatB_of_fields hop
    rw [harg] at hw
    exact ⟨rfl, hw⟩
  · cases h

/-- Encoding what a word decodes to gives the word back (R68): one case per opcode of the decoder. -/
theorem encode_of_decode {w : CmdWord} {i : Instr} (h : decode w = .ok i) : encode i = w := by
  unfold decode at h
  split at h
  · next hop => obtain ⟨rfl, hw⟩ := formatZ_of_decodeZ hop h; exact hw
  split at h
  · next hop => cases h; exact formatB_of_fields hop
  split at h
  · next hop => cases h; exact formatB_of_fields hop
  split at h
  · next hop => obtain ⟨rfl, hw⟩ := formatZ_of_decodeZ hop h; exact hw
  split at h
  · next hop => obtain ⟨rfl, hw⟩ := formatZ_of_decodeZ hop h; exact hw
  split at h
  · next hop => obtain ⟨rfl, hw⟩ := formatZ_of_decodeZ hop h; exact hw
  · cases h

end Sys2Proof

namespace Sys2Proof.Machine

/-- Everything an accepted word that answers a next state can do: a case of the command it decodes to, or the fault
IllegalCmd (R142). -/
theorem acceptWord_execCase {w : CmdWord} {s t : State} (h : acceptWord w s = .next t) :
    (∃ i, decode w = .ok i ∧ ExecCase s t i) ∨ ((∃ e, decode w = .error e) ∧ t = s.raise .illegalCmd) := by
  rcases acceptWord_cases w s with ⟨i, hd, ha⟩ | ⟨e, hd, ha⟩
  · exact .inl ⟨i, hd, exec_cases (ha.symm.trans h)⟩
  · cases ha.symm.trans h; exact .inr ⟨⟨e, hd⟩, rfl⟩

/-- What a command does to OUT: EMIT appends the two bytes of ACC, no other command touches it (R26, R82). -/
theorem ExecCase.emits {s t : State} {i : Instr} (hx : ExecCase s t i) :
    (i = .emit ∧ t = (s.emit (lowByte s.acc)).emit (highByte s.acc)) ∨ (i ≠ .emit ∧ t.out = s.out) := by
  cases hx with
  | emit ht => exact .inl ⟨rfl, ht⟩
  | _ => subst t; exact .inr ⟨nofun, by simp⟩

/-- What an accepted word does to OUT: 0x400 appends the two bytes of ACC, no other word touches it. -/
theorem acceptWord_emits {w : CmdWord} {s t : State} (h : acceptWord w s = .next t) :
    (w = 0x400#12 ∧ t = (s.emit (lowByte s.acc)).emit (highByte s.acc)) ∨ (w ≠ 0x400#12 ∧ t.out = s.out) := by
  have hemit : decode 0x400#12 = .ok .emit := by decide
  rcases acceptWord_execCase h with ⟨i, hd, hx⟩ | ⟨⟨e, hd⟩, rfl⟩
  · rcases hx.emits with ⟨rfl, ht⟩ | ⟨hi, ht⟩
    · exact .inl ⟨(encode_of_decode hd).symm, ht⟩
    · refine .inr ⟨?_, ht⟩
      rintro rfl
      exact hi (Except.ok.inj (hd.symm.trans hemit))
  · refine .inr ⟨?_, rfl⟩
    rintro rfl
    cases hemit.symm.trans hd

end Sys2Proof.Machine
end

section
/-! PROOFS. The invariant of the engine (R22 to R26): the reset state has it and every step keeps it. -/

namespace Sys2Proof.Machine

/-- The table invariant speaks of T, TSTATE and the build alone. -/
theorem State.TableInv.congr {s t : State} (h : s.TableInv) (htable : t.table = s.table) (htstate : t.tstate = s.tstate)
    (hbuild : t.build = s.build) : t.TableInv := by
  obtain ⟨h1, h2, h3, h4, h5⟩ := h
  constructor <;> simpa only [htable, htstate, hbuild]

/-- A correct table in canonical form may be marked LOADED or VERIFIED, in an EMBEDDED build if it is TABLE_ROM. -/
theorem State.TableInv.of_correct {s : State} (hwf : s.table.wf = true) (hne : s.tstate ≠ .empty)
    (hc : s.table.Correct) (hrom : ∀ rom, s.build = .embedded rom → s.table = Memory.ofRom rom) : s.TableInv where
  canonical := hwf
  empty_unwritten h := absurd h hne
  generated_correct _ _ := hc
  embedded_rom rom h := ⟨hne, hrom rom h⟩
  verified_correct _ := hc

/-- Every command keeps the table invariant: only TGEN on an EMPTY table and TVER on a correct one touch what it speaks
of (R112, R113). -/
theorem State.TableInv.exec {s t : State} {i : Instr} (h : s.TableInv) (hx : ExecCase s t i) : t.TableInv := by
  cases hx with
  | tgen he ht =>
    subst ht
    have hgen := (h.empty_unwritten he).2
    have hwf := Memory.wf_fill h.canonical tableEntry tableIndices
    refine .of_correct (by simpa using hwf) (by simp) (by simpa using s.table.correct_fill) fun rom hb => ?_
    simp [hgen] at hb
  | tverMatch _ hc ht =>
    subst ht
    exact .of_correct h.canonical nofun hc fun rom hb => (h.embedded_rom rom hb).2
  | tgenAgain _ ht => exact ht ▸ h
  | tverAgain _ ht => exact ht ▸ h
  | _ => subst t; exact h.congr rfl rfl rfl

/-- In a running engine the fault invariant says that FIDX is 0 (R25). -/
theorem State.FaultInv.of_running {s : State} (hc : s.cause = .none) (hf : s.fidx = 0#8) : s.FaultInv where
  fidx_zero _ := hf
  mismatch_lowest h := by rw [hc] at h; cases h

/-- Fault entry keeps the fault invariant: a TableMismatch has to be at the lowest wrong index of a LOADED table, the
other two leave 0 in FIDX (R146). -/
theorem State.FaultInv.raise {s : State} {f : EngineFault}
    (hf : ∀ i, f = .tableMismatch i → s.tstate = .loaded ∧ s.table.LowestWrong i) : (s.raise f).FaultInv where
  fidx_zero h := by
    cases f with
    | tableMismatch i => exact absurd rfl h
    | illegalCmd => rfl
    | tableNotReady => rfl
  mismatch_lowest h := by
    cases f with
    | tableMismatch i => exact hf i rfl
    | illegalCmd => cases h
    | tableNotReady => cases h

/-- A command that a running engine executes keeps the fault invariant. -/
theorem State.FaultInv.exec {s t : State} {i : Instr} (h : s.FaultInv) (hc : s.cause = .none) (hx : ExecCase s t i) :
    t.FaultInv := by
  have hf : s.fidx = 0#8 := h.fidx_zero (by rw [hc]; nofun)
  cases hx with
  | updtNotReady b _ ht => subst ht; exact .raise nofun
  | tverNotReady _ ht => subst ht; exact .raise nofun
  | tverMismatch k v hl hw _ ht => subst ht; exact .raise fun _ hk => by cases hk; exact ⟨hl, hw⟩
  | _ => subst t; exact .of_running (by simpa using hc) (by simpa using hf)

/-- OUT keeps an even length. -/
theorem acceptWord_out_even {w : CmdWord} {s t : State} (h : acceptWord w s = .next t) (hs : s.out.length % 2 = 0) :
    t.out.length % 2 = 0 := by
  rcases acceptWord_emits h with ⟨-, rfl⟩ | ⟨-, ht⟩
  · simpa using hs
  · rw [ht]; exact hs

/-- An accepted word keeps the invariant of a running engine. -/
theorem State.Inv.acceptWord {w : CmdWord} {s t : State} (h : s.Inv) (hc : s.cause = .none)
    (ha : acceptWord w s = .next t) : t.Inv := by
  have heven := acceptWord_out_even ha h.out_even
  rcases acceptWord_execCase ha with ⟨i, -, hx⟩ | ⟨-, rfl⟩
  · exact ⟨h.table.exec hx, h.fault.exec hc hx, heven⟩
  · exact ⟨h.table.congr rfl rfl rfl, .raise nofun, heven⟩

/-- What the host does next is no part of the invariant. -/
theorem State.Inv.setHost {s : State} (h : s.Inv) (l : List HostAction) : (s.setHost l).Inv where
  table := h.table.congr rfl rfl rfl
  fault := ⟨h.fault.fidx_zero, h.fault.mismatch_lowest⟩
  out_even := h.out_even

/-- The reset state of every build has the table invariant: nothing is written, or the table is TABLE_ROM (R31). -/
theorem State.TableInv.resetOf (build : Build) (host : List HostAction) : (State.resetOf build host).TableInv := by
  cases build with
  | generated => exact ⟨rfl, fun _ => ⟨rfl, rfl⟩, fun _ h => absurd rfl h, nofun, nofun⟩
  | embedded rom =>
    exact ⟨Memory.wf_ofRom rom, nofun, nofun, fun _ hb => by cases hb; exact ⟨nofun, rfl⟩, nofun⟩

/-- The reset state of every build has the invariant. -/
theorem State.Inv.resetOf (build : Build) (host : List HostAction) : (State.resetOf build host).Inv where
  table := .resetOf build host
  fault := .of_running rfl rfl
  out_even := rfl

/-- Settles O37: build by build, the table being empty or TABLE_ROM. -/
theorem resetStateHasTheInvariant : Obligations.ResetStateHasTheInvariant := State.Inv.resetOf

/-- Settles O38: an accepted word is accepted by a running engine and keeps the invariant case by case of its command,
a reset leads to a reset state, and an idle step changes nothing. -/
theorem everyStepKeepsTheInvariant : Obligations.EveryStepKeepsTheInvariant := by
  intro s t hs h
  rcases step_cases h with ⟨-, -, rfl⟩ | ⟨w, rest, hc, -, ha⟩ | ⟨rest, -, -, rfl⟩ | ⟨ws, rest, -, -, rfl⟩
  · exact hs
  · exact (hs.setHost rest).acceptWord hc ha
  · exact .resetOf _ _
  · exact .resetOf _ _

end Sys2Proof.Machine
end

section
/-! PROOFS. The invariant of the ports (R34, R35, R147, R160): reset has it and every edge keeps it. -/

namespace Sys2Proof.Machine

@[simp] theorem Phase.waiting_ready : Phase.ready.waiting = [] := rfl

@[simp] theorem Phase.waiting_running (w : CmdWord) (n : Nat) : (Phase.running w n).waiting = [] := rfl

@[simp] theorem Phase.waiting_delivering (bytes : List Byte) (n : Nat) :
    (Phase.delivering bytes n).waiting = bytes := rfl

/-- A command takes effect into a delivering phase only with bytes to deliver. -/
theorem phaseAfter_delivering {e n : Nat} {bs bytes : List Byte} (h : phaseAfter e bs = .delivering bytes n) :
    bytes ≠ [] := by
  cases bs with
  | nil => rcases recoverPhase_cases e with hr | ⟨m, hr⟩ <;> cases hr.symm.trans h
  | cons b bs => cases h; nofun

/-- A command that runs runs in an engine that is not halted. -/
theorem PortState.Inv.busyNotHalted {p : PortState} (h : p.Inv) : p.BusyNotHalted := by
  intro hne
  cases hp : p.phase with
  | running w n => exact (State.halted_eq_false _).mp (h.running_not_halted w n hp)
  | _ => rw [hp] at hne; exact absurd rfl hne

theorem PortState.BusyNotHalted.running_not_halted {p : PortState} (h : p.BusyNotHalted) (w : CmdWord) (n : Nat)
    (hp : p.phase = .running w n) : p.core.halted = false :=
  (State.halted_eq_false _).mpr (h (by rw [hp]; nofun))

/-- Where no byte waits, the bytes taken since the last reset are OUT, and of a halt there is nothing to say. -/
theorem PortState.Inv.of_none_waits {p : PortState} (hcore : p.core.Inv) (hmark : p.mark ≤ p.heard.length)
    (hheard : p.heard.drop p.mark = p.core.out) (hwait : p.phase.waiting = [])
    (hdel : ∀ bytes n, p.phase = .delivering bytes n → bytes ≠ []) (hbusy : p.BusyNotHalted) : p.Inv where
  core := hcore
  heard_waiting := by rw [hwait, List.append_nil, hheard]
  mark_le := hmark
  waiting_le_two := by rw [hwait]; decide
  halted_none_waits _ := hwait
  delivering_nonempty := hdel
  running_not_halted := hbusy.running_not_halted

/-- Right after reset nothing is in progress, nothing waits and nothing was taken since (R160). -/
theorem PortState.Inv.of_reset {p : PortState} (hcore : ∃ build host, p.core = State.resetOf build host)
    (hmark : p.mark = p.heard.length) (hphase : ∃ e, p.phase = recoverPhase e) : p.Inv := by
  obtain ⟨build, host, hcore⟩ := hcore
  obtain ⟨e, hphase⟩ := hphase
  refine .of_none_waits (hcore ▸ .resetOf build host) hmark.le (by simp [hmark, hcore]) (by simp [hphase]) ?_
    (.of_idle (by simp [hphase]))
  intro bytes n hp
  exact phaseAfter_delivering (bs := []) (hphase.symm.trans hp)

/-- Accepting a word keeps the invariant of the ports: the word has no effect yet. -/
theorem PortState.Inv.accept {p : PortState} {i : PinsIn} {w : CmdWord} (h : p.Inv) (ha : p.accepts i = some w)
    (n : Nat) : (p.goOn (.running w n)).Inv := by
  obtain ⟨hready, hrun⟩ := PortState.accepts_ready ha
  have hheard := h.heard_waiting
  rw [hready, Phase.waiting_ready, List.append_nil] at hheard
  exact .of_none_waits h.core h.mark_le hheard rfl nofun fun _ => (State.halted_eq_false _).mp hrun

/-- The bytes an accepted word adds to OUT: at most two, and none where it raises a fault (R82, R146). -/
theorem acceptWord_newBytes {w : CmdWord} {s t : State} (hs : s.cause = .none) (h : acceptWord w s = .next t) :
    s.out ++ t.out.drop s.out.length = t.out ∧ (t.out.drop s.out.length).length ≤ 2 ∧
    (t.halted = true → t.out.drop s.out.length = []) := by
  rcases acceptWord_emits h with ⟨-, rfl⟩ | ⟨-, ht⟩
  · simp [hs]
  · simp [ht]

/-- The effect of the word in progress keeps the invariant of the ports: the bytes it adds to OUT are those that wait
afterwards. -/
theorem PortState.Inv.effect {p : PortState} {w : CmdWord} {n : Nat} {t : State} (h : p.Inv)
    (hp : p.phase = .running w n) (ht : acceptWord w p.core = .next t) :
    ({ p with core := t, phase := phaseAfter p.edges (t.out.drop p.core.out.length), edges := p.edges + 1 } :
      PortState).Inv := by
  have hrun : p.core.cause = .none := (State.halted_eq_false _).mp (h.running_not_halted w n hp)
  have hheard := h.heard_waiting
  rw [hp, Phase.waiting_running, List.append_nil] at hheard
  obtain ⟨hout, hlen, hhalt⟩ := acceptWord_newBytes hrun ht
  exact
    { core := h.core.acceptWord hrun ht
      heard_waiting := by simpa [hheard] using hout
      mark_le := h.mark_le
      waiting_le_two := by simpa using hlen
      halted_none_waits := by simpa using hhalt
      delivering_nonempty := fun _ _ => phaseAfter_delivering
      running_not_halted := PortState.BusyNotHalted.running_not_halted (.of_idle (phaseAfter_inProgress _ _)) }

/-- Taking the byte on offer, or leaving it, keeps the invariant of the ports: a byte taken goes from those that wait to
those taken. -/
theorem PortState.Inv.deliver {p : PortState} {b : Byte} {bs : List Byte} (h : p.Inv)
    (hp : p.phase = .delivering (b :: bs) 0) (r : Bool) : (p.deliver b bs r).Inv := by
  have hheard := h.heard_waiting
  have hlen := h.waiting_le_two
  have hhalt := h.halted_none_waits
  rw [hp, Phase.waiting_delivering] at hheard hlen hhalt
  cases r with
  | false =>
    obtain ⟨h1, h2, h3, h4, h5, h6, h7⟩ := h
    exact ⟨h1, h2, h3, h4, h5, h6, h7⟩
  | true =>
    exact
      { core := h.core
        heard_waiting := by simpa [PortState.deliver, List.drop_append_of_le_length h.mark_le] using hheard
        mark_le := by have := h.mark_le; simp [PortState.deliver]; omega
        waiting_le_two := by simp [PortState.deliver] at hlen ⊢; omega
        halted_none_waits := fun hh => absurd (hhalt hh) nofun
        delivering_nonempty := fun _ _ => phaseAfter_delivering
        running_not_halted := PortState.BusyNotHalted.running_not_halted (.of_idle (phaseAfter_inProgress _ _)) }

/-- An edge at which the engine only waits keeps the invariant of the ports. -/
theorem PortState.Inv.wait {p : PortState} {i : PinsIn} {ph : Phase} (h : p.Inv) (hw : p.Waits i ph) :
    (p.goOn ph).Inv where
  core := h.core
  heard_waiting := hw.waiting ▸ h.heard_waiting
  mark_le := h.mark_le
  waiting_le_two := hw.waiting ▸ h.waiting_le_two
  halted_none_waits := hw.waiting ▸ h.halted_none_waits
  delivering_nonempty bytes n hp := by
    obtain ⟨m, hm⟩ := hw.delivering bytes n hp
    exact h.delivering_nonempty bytes m hm
  running_not_halted := PortState.BusyNotHalted.running_not_halted fun hne => h.busyNotHalted (hw.inProgress ▸ hne)

/-- Settles O54: after reset nothing has been taken and nothing waits. -/
theorem portsAfterResetHaveTheInvariant : Obligations.PortsAfterResetHaveTheInvariant :=
  fun build edges => .of_reset ⟨build, [], rfl⟩ rfl ⟨edges, rfl⟩

/-- Settles O55: one case for each thing an edge can do. Only the effect of an EMIT lets bytes wait, and it adds the same
bytes to OUT; only a delivery takes them, one at a time. -/
theorem everyEdgeKeepsThePortInvariant : Obligations.EveryEdgeKeepsThePortInvariant := by
  intro p p' i h he
  rcases PortState.edge_cases he with ⟨-, rfl⟩ |
    ⟨-, ⟨w, ha, rfl⟩ | ⟨w, t, hp, ht, rfl⟩ | ⟨b, bs, hp, rfl⟩ | ⟨ph, hw, rfl⟩⟩
  · exact .of_reset ⟨_, _, rfl⟩ rfl ⟨_, rfl⟩
  · exact h.accept ha _
  · exact h.effect hp ht
  · exact h.deliver hp _
  · exact h.wait hw

end Sys2Proof.Machine
end

section
/-! PROOFS. What each command leaves unchanged (R33), when it completes (R30), and that an EMPTY table is never read. -/

namespace Sys2Proof.Machine

/-- T is written by TGEN in state EMPTY alone (R53). -/
theorem ExecCase.table_eq {s t : State} {i : Instr} (hx : ExecCase s t i) (h : i ≠ .tgen ∨ s.tstate ≠ .empty) :
    t.table = s.table := by
  cases hx with
  | tgen he => exact (h.elim (· rfl) (· he)).elim
  | _ => subst t; simp

/-- The index of the table lookup is ACC[7:0] XOR the byte (R90). -/
theorem tableIndex_eq (a : Word) (b : Byte) : tableIndex a b = a.extractLsb' 0 8 ^^^ b := by
  rw [tableIndex, lowByte, zext16, BitVec.extractLsb'_and, BitVec.extractLsb'_xor,
    BitVec.extractLsb'_setWidth_of_le (by decide), BitVec.extractLsb'_eq_self,
    show (0x00FF#16).extractLsb' 0 8 = BitVec.allOnes 8 by decide, BitVec.and_allOnes]

/-- UPDT on a table that is not VERIFIED raises TableNotReady (R91). -/
theorem exec_updt_notReady {s : State} (b : Byte) (h : s.tstate ≠ .verified) :
    exec (.updt b) s = .next (s.raise .tableNotReady) := by
  cases hs : s.tstate with
  | verified => exact absurd hs h
  | _ => simp only [exec, execUpdt, hs]

/-- UPDT on a VERIFIED table takes ACC one byte further by the entry it reads (R91). -/
theorem exec_updt_written {s : State} {b : Byte} {entry : Word} (h : s.tstate = .verified)
    (hr : s.table.read (tableIndex s.acc b) = some entry) :
    exec (.updt b) s = .next (s.setAcc (tableStep s.acc entry)) := by
  simp only [exec, execUpdt, h, hr]

/-- UPDT on a VERIFIED table that lacks the entry it reads stops (log entry 3). -/
theorem exec_updt_unwritten {s : State} {b : Byte} (h : s.tstate = .verified)
    (hr : s.table.read (tableIndex s.acc b) = none) : exec (.updt b) s = .fault .unwrittenEntry := by
  simp only [exec, execUpdt, h, hr]

/-- TGEN fills an EMPTY table (R112). -/
theorem exec_tgen_empty {s : State} (h : s.tstate = .empty) :
    exec .tgen s = .next ((s.setTable (s.table.fill tableEntry tableIndices)).setTState .loaded) := by
  simp only [exec, execTgen, h]

/-- TGEN has no effect on a table that is not EMPTY (R112). -/
theorem exec_tgen_again {s : State} (h : s.tstate ≠ .empty) : exec .tgen s = .next s := by
  cases hs : s.tstate with
  | empty => exact absurd hs h
  | _ => simp only [exec, execTgen, hs]

/-- TVER on an EMPTY table raises TableNotReady (R113). -/
theorem exec_tver_empty {s : State} (h : s.tstate = .empty) : exec .tver s = .next (s.raise .tableNotReady) := by
  simp only [exec, execTver, h]

/-- TVER has no effect on a VERIFIED table (R113). -/
theorem exec_tver_verified {s : State} (h : s.tstate = .verified) : exec .tver s = .next s := by
  simp only [exec, execTver, h]

/-- TVER on a LOADED table whose lowest wrong entry is absent stops (log entry 3). -/
theorem exec_tver_unwritten {s : State} {i : Byte} (h : s.tstate = .loaded) (hw : s.table.LowestWrong i)
    (hr : s.table.read i = none) : exec .tver s = .fault .unwrittenEntry := by
  rcases s.table.verify_spec with ⟨hc, -⟩ | ⟨j, -, -, hv⟩ | ⟨j, v, hj, hread, -, -⟩
  · exact absurd hc hw.not_correct
  · simp only [exec, execTver, h, hv]
  · rw [hj.unique hw, hr] at hread; cases hread

/-- TVER completes, or the table is LOADED and its lowest wrong entry absent (R113). -/
theorem exec_tver_completes_or (s : State) : (∃ t, exec .tver s = .next t) ∨
    (s.tstate = .loaded ∧ ∃ k, s.table.LowestWrong k ∧ s.table.read k = none) := by
  cases hs : s.tstate with
  | empty => exact .inl ⟨_, exec_tver_empty hs⟩
  | verified => exact .inl ⟨_, exec_tver_verified hs⟩
  | loaded =>
    rcases s.table.verify_spec with ⟨-, hv⟩ | ⟨k, hk, hr, -⟩ | ⟨k, v, -, -, -, hv⟩
    · exact .inl ⟨_, by simp only [exec, execTver, hs, hv]; rfl⟩
    · exact .inr ⟨rfl, k, hk, hr⟩
    · exact .inl ⟨_, by simp only [exec, execTver, hs, hv]; rfl⟩

/-- Every command completes but UPDT on a VERIFIED table that lacks the entry it reads and TVER on a LOADED one whose
lowest wrong entry is absent. -/
theorem exec_completes_or (s : State) (i : Instr) : (∃ t, exec i s = .next t) ∨
    (∃ b, i = .updt b ∧ s.tstate = .verified ∧ s.table.read (tableIndex s.acc b) = none) ∨
    (i = .tver ∧ s.tstate = .loaded ∧ ∃ k, s.table.LowestWrong k ∧ s.table.read k = none) := by
  cases i with
  | init => exact .inl ⟨_, rfl⟩
  | updb b => exact .inl ⟨_, rfl⟩
  | emit => exact .inl ⟨_, rfl⟩
  | tgen =>
    by_cases hs : s.tstate = .empty
    · exact .inl ⟨_, exec_tgen_empty hs⟩
    · exact .inl ⟨_, exec_tgen_again hs⟩
  | tver => exact (exec_tver_completes_or s).imp id fun h => .inr ⟨rfl, h⟩
  | updt b =>
    by_cases hs : s.tstate = .verified
    · cases hr : s.table.read (tableIndex s.acc b) with
      | none => exact .inr (.inl ⟨b, rfl, hs, hr⟩)
      | some entry => exact .inl ⟨_, exec_updt_written hs hr⟩
    · exact .inl ⟨_, exec_updt_notReady b hs⟩

/-- Under the table invariant a table that is not EMPTY has every entry (R22, R31). -/
theorem State.TableInv.written {s : State} (h : s.TableInv) (hne : s.tstate ≠ .empty) (i : Byte) :
    s.table.read i ≠ none := by
  cases hb : s.build with
  | generated => rw [h.generated_correct hb hne i]; nofun
  | embedded rom => rw [(h.embedded_rom rom hb).2, Memory.read_ofRom]; nofun

/-- Under the table invariant every accepted word completes. -/
theorem State.TableInv.acceptWord_completes {s : State} (h : s.TableInv) (w : CmdWord) :
    ∃ t, acceptWord w s = .next t := by
  rcases acceptWord_cases w s with ⟨i, -, ha⟩ | ⟨e, -, ha⟩
  · rw [ha]
    rcases exec_completes_or s i with hx | ⟨b, -, hv, hr⟩ | ⟨-, hl, k, -, hr⟩
    · exact hx
    · exact absurd hr (h.written (by rw [hv]; nofun) _)
    · exact absurd hr (h.written (by rw [hl]; nofun) _)
  · exact ⟨_, ha⟩

/-- Settles O20: by the cases of UPDT and TVER, every other command completing in every state. -/
theorem onlyAnUnwrittenEntryStops : Obligations.OnlyAnUnwrittenEntryStops := by
  unfold Obligations.OnlyAnUnwrittenEntryStops
  simp only [← tableIndex_eq]
  exact ⟨fun s b => exec_updt_unwritten, fun s i => exec_tver_unwritten, exec_completes_or⟩

/-- Settles O39: with nothing offered the engine keeps its state, a reset is always taken, and a word is accepted and
completes. -/
theorem runningEngineAlwaysHasANextState : Obligations.RunningEngineAlwaysHasANextState := by
  intro s hs hrun
  have hc := (State.halted_eq_false s).mp hrun
  cases hh : s.host with
  | nil => exact ⟨s, by rw [step_running hc, runStep, hh]⟩
  | cons a rest =>
    cases a with
    | reset => exact ⟨_, step_reset hh⟩
    | command w =>
      have hrest : (s.setHost rest).TableInv := hs.congr rfl rfl rfl
      rw [step_command hc hh]
      exact hrest.acceptWord_completes w

/-- Loading a table over two engines that differ in T alone leaves two that differ in T alone. -/
theorem State.loadTable_eq (s : State) (m m₁ m₂ : Memory) :
    ((s.setTable m).setTable m₁).setTState .loaded =
      { (s.setTable m₂).setTState .loaded with
        table := (((s.setTable m).setTable m₁).setTState .loaded).table } := rfl

/-- Settles O41: in state EMPTY UPDT and TVER fault before they read, TGEN writes every entry without reading one, and
the other commands do not look at T. -/
theorem unspecifiedTableContentsAreNeverObserved : Obligations.UnspecifiedTableContentsAreNeverObserved := by
  intro s m i he
  have hm : { s with table := m } = s.setTable m := rfl
  rw [hm]
  cases i with
  | init => exact ⟨_, _, rfl, rfl, rfl, absurd he⟩
  | updb b => exact ⟨_, _, rfl, rfl, rfl, absurd he⟩
  | emit => exact ⟨_, _, rfl, rfl, rfl, absurd he⟩
  | updt b =>
    have hne : s.tstate ≠ .verified := by rw [he]; nofun
    exact ⟨_, _, exec_updt_notReady b hne, exec_updt_notReady (s := s.setTable m) b hne, rfl, absurd he⟩
  | tver => exact ⟨_, _, exec_tver_empty he, exec_tver_empty (s := s.setTable m) he, rfl, absurd he⟩
  | tgen =>
    refine ⟨_, _, exec_tgen_empty he, exec_tgen_empty (s := s.setTable m) he, s.loadTable_eq m _ _,
      fun _ k => ?_⟩
    simp only [State.setTState_table, State.setTable_table]
    exact (Memory.correct_fill m k).trans (Memory.correct_fill s.table k).symm

/-- Settles O29: each command's cases write only its destinations. -/
theorem frameOfSessionAndUpdateCommands : Obligations.FrameOfSessionAndUpdateCommands := by
  refine ⟨fun s t i hi h => ?_, fun s t b h => ?_, fun s t h => ?_⟩
  · rcases hi with rfl | ⟨b, rfl⟩
    · cases exec_cases h with
      | init ht => subst ht; simp
    · cases exec_cases h with
      | updb _ ht => subst ht; simp
  · cases exec_cases h with
    | updtNotReady _ hv ht => subst ht; simp [hv]
    | updt _ entry hv _ ht => subst ht; simp [hv]
  · cases exec_cases h with
    | emit ht => subst ht; simp

/-- Settles O30: TGEN stores to the 256 indices of the table space and only in state EMPTY; TVER stores nothing. -/
theorem frameOfTableCommands : Obligations.FrameOfTableCommands := by
  refine ⟨fun s t h => ?_, fun s t h => ?_⟩
  · cases exec_cases h with
    | tgen he ht =>
      subst ht
      refine ⟨fun k hk => ?_, fun hne => absurd he hne, by simp⟩
      rw [State.setTState_table, State.setTable_table]
      exact Memory.readCell_fill_of_ge _ _ _ (hk.resolve_left (absurd he))
    | tgenAgain _ ht => subst ht; simp
  · cases exec_cases h with
    | tverNotReady _ ht => subst ht; simp
    | tverMatch hl _ ht => subst ht; simp [hl]
    | tverMismatch i v _ _ _ ht => subst ht; simp
    | tverAgain _ ht => subst ht; simp

end Sys2Proof.Machine
end

section
/-! PROOFS. The table-driven step agrees with the bitwise step (R92), by linearity of the reduction over XOR (R100,
R101). -/

namespace Sys2Proof.Machine

/-- Step1 is linear over XOR (R100). -/
theorem step1_xor (x y : Word) : step1 (x ^^^ y) = step1 x ^^^ step1 y := by
  simp only [step1, BitVec.getLsbD_xor, BitVec.ushiftRight_xor_distrib]
  cases x.getLsbD 0 <;> cases y.getLsbD 0 <;> simp only [Bool.false_xor, Bool.true_xor, Bool.not_false, Bool.not_true,
    reduceIte, Bool.false_eq_true]
  case false.true | true.false => ac_rfl
  case true.true =>
    have hpoly : x >>> 1 ^^^ Config.polyRefl ^^^ (y >>> 1 ^^^ Config.polyRefl) =
        x >>> 1 ^^^ y >>> 1 ^^^ (Config.polyRefl ^^^ Config.polyRefl) := by ac_rfl
    rw [hpoly, BitVec.xor_self, BitVec.xor_zero]

/-- Reduce8 is linear over XOR (R101). -/
theorem reduce8_xor (x y : Word) : reduce8 (x ^^^ y) = reduce8 x ^^^ reduce8 y := by
  simp only [reduce8, step1_xor]

/-- Step1 of an even word only shifts. -/
theorem step1_of_even {a : Word} (h : a.getLsbD 0 = false) : step1 a = a >>> 1 := by
  rw [step1, h]; rfl

/-- Reduce8 of a word whose low byte is zero only shifts (R101). -/
theorem reduce8_of_lowByte_zero {a : Word} (h : lowByte a = 0#8) : reduce8 a = a >>> 8 := by
  have hbit : ∀ k < 8, a.getLsbD k = false := by
    intro k hk
    have := congrArg (·.getLsbD k) h
    simpa [lowByte, hk] using this
  have hstep : ∀ k < 8, step1 (a >>> k) = a >>> (k + 1) := by
    intro k hk
    rw [step1_of_even (by simpa using hbit k hk), BitVec.shiftRight_add]
  have h0 : step1 a = a >>> 1 := step1_of_even (hbit 0 (by decide))
  simp only [reduce8, h0, hstep 1 (by decide), hstep 2 (by decide), hstep 3 (by decide), hstep 4 (by decide),
    hstep 5 (by decide), hstep 6 (by decide), hstep 7 (by decide)]

/-- The low byte of a widened byte is the byte. -/
theorem lowByte_zext16 (b : Byte) : lowByte (zext16 b) = b := by
  rw [lowByte, zext16, BitVec.extractLsb'_setWidth_of_le (by decide), BitVec.extractLsb'_eq_self]

theorem lowByte_xor (x y : Word) : lowByte (x ^^^ y) = lowByte x ^^^ lowByte y := BitVec.extractLsb'_xor

/-- A widened byte has no bits above its eight. -/
theorem zext16_shiftRight (b : Byte) : zext16 b >>> 8 = 0#16 := by
  ext i hi
  simp [zext16]

/-- Reduce8 is a shift by eight XOR the table entry of the low byte (R101, R102). -/
theorem reduce8_eq (x : Word) : reduce8 x = (x >>> 8) ^^^ tableEntry (lowByte x) := by
  have hlow : lowByte (x ^^^ zext16 (lowByte x)) = 0#8 := by
    rw [lowByte_xor, lowByte_zext16, BitVec.xor_self]
  calc reduce8 x = reduce8 (x ^^^ zext16 (lowByte x)) ^^^ reduce8 (zext16 (lowByte x)) := by
        rw [← reduce8_xor, BitVec.xor_assoc, BitVec.xor_self, BitVec.xor_zero]
    _ = (x ^^^ zext16 (lowByte x)) >>> 8 ^^^ tableEntry (lowByte x) := by
        rw [reduce8_of_lowByte_zero hlow, tableEntry]
    _ = (x >>> 8) ^^^ tableEntry (lowByte x) := by
        rw [BitVec.ushiftRight_xor_distrib, zext16_shiftRight, BitVec.xor_zero]

/-- The table-driven step over the correct table is the bitwise step (R92). -/
theorem tableStep_eq_updB (a : Word) (b : Byte) : tableStep a (tableEntry (tableIndex a b)) = updB a b := by
  have hindex : tableIndex a b = lowByte (a ^^^ zext16 b) := by
    rw [tableIndex_eq, lowByte_xor, lowByte_zext16, lowByte]
  rw [updB, reduce8_eq, BitVec.ushiftRight_xor_distrib, zext16_shiftRight, BitVec.xor_zero, tableStep, hindex]

end Sys2Proof.Machine
end

section
/-! PROOFS. The settled statements about the status fields and about one step: what it does to CAUSE, TSTATE, T, OUT and
ACC (R20 to R27, R31). -/

namespace Sys2Proof.Machine

/-- Settles O1: field by field, in both builds. -/
theorem resetStateOfBothBuilds : Obligations.ResetStateOfBothBuilds :=
  ⟨fun _ => ⟨_, rfl, rfl, fun _ => rfl, rfl, rfl, rfl, rfl, rfl⟩,
    fun rom _ => ⟨_, rfl, rfl, Memory.read_ofRom rom, rfl, rfl, rfl, rfl, rfl⟩⟩

/-- Settles O5: the pins carry `State.status`, and halt is the comparison of the code of CAUSE with 0. -/
theorem statusOutputsShowTheFields : Obligations.StatusOutputsShowTheFields :=
  fun _ _ => ⟨rfl, rfl, rfl, bne_iff_ne⟩

/-- A halted engine steps by the host's next reset alone (R147, R148). -/
theorem step_of_halted {s t : State} (hc : s.cause ≠ .none) (h : step s = .next t) :
    .reset ∈ s.host ∧ t = State.resetOf s.build t.host := by
  rcases step_cases h with ⟨hn, -⟩ | ⟨w, rest, hn, -⟩ | ⟨rest, hn, -⟩ | ⟨ws, rest, -, hh, rfl⟩
  · exact absurd hn hc
  · exact absurd hn hc
  · exact absurd hn hc
  · exact ⟨by simp [hh], rfl⟩

/-- Settles O3: a halted engine steps by a reset alone, and the reset state has CAUSE NONE. -/
theorem causeIsStickyUntilReset : Obligations.CauseIsStickyUntilReset := by
  refine ⟨rfl, rfl, rfl, rfl, State.halted_eq_true, fun s t hc h => ?_⟩
  obtain ⟨hmem, ht⟩ := step_of_halted hc h
  exact ⟨hmem, ht, by rw [ht, State.resetOf_cause]⟩

/-- What a command does to TSTATE: TGEN takes EMPTY to LOADED, TVER takes LOADED to VERIFIED on a correct table, and
nothing else touches it (R23). -/
theorem ExecCase.tstate_cases {s t : State} {i : Instr} (hx : ExecCase s t i) :
    t.tstate = s.tstate ∨ (i = .tgen ∧ s.tstate = .empty ∧ t.tstate = .loaded) ∨
    (i = .tver ∧ s.tstate = .loaded ∧ s.table.Correct ∧ t.tstate = .verified) := by
  cases hx with
  | tgen he ht => subst ht; exact .inr (.inl ⟨rfl, he, by simp⟩)
  | tverMatch hl hc ht => subst ht; exact .inr (.inr ⟨rfl, hl, hc, rfl⟩)
  | _ => subst t; exact .inl (by simp)

/-- Settles O4: by what each command does to TSTATE, and because a command has one word. -/
theorem tableStatusMovesForwardOnly : Obligations.TableStatusMovesForwardOnly := by
  refine ⟨rfl, rfl, rfl, by rintro (_ | _ | _) <;> decide, fun s t h => ?_⟩
  rcases step_cases h with ⟨-, -, rfl⟩ | ⟨w, rest, -, hh, ha⟩ | ⟨rest, -, hh, rfl⟩ | ⟨ws, rest, -, hh, rfl⟩
  · exact .inl rfl
  · rcases acceptWord_execCase ha with ⟨i, hd, hx⟩ | ⟨-, rfl⟩
    · obtain rfl := encode_of_decode hd
      rcases hx.tstate_cases with ht | ⟨rfl, he, ht⟩ | ⟨rfl, hl, hc, ht⟩
      · exact .inl ht
      · exact .inr (.inl ⟨rest, hh, he, ht⟩)
      · exact .inr (.inr (.inl ⟨rest, hh, hl, hc, ht⟩))
    · exact .inl rfl
  · exact .inr (.inr (.inr ⟨by simp [hh], rfl⟩))
  · exact .inr (.inr (.inr ⟨by simp [hh], rfl⟩))

/-- The host's next reset is found behind the words before it. -/
theorem afterReset_commands (ws : List CmdWord) (rest : List HostAction) :
    afterReset (ws.map .command ++ .reset :: rest) = some rest := by
  induction ws with
  | nil => rfl
  | cons w ws ih => exact ih

/-- A halted engine takes the host's next reset, the words before it being withdrawn (log entry 6). -/
theorem step_halted_reset {s : State} {ws : List CmdWord} {rest : List HostAction} (hc : s.cause ≠ .none)
    (hh : s.host = ws.map .command ++ .reset :: rest) : step s = .next (State.resetOf s.build rest) := by
  rw [step_halted hc, haltedStep, hh, afterReset_commands]
  rfl

/-- The two bytes of EMIT as a truncation and a shift (R43). -/
theorem lowByte_eq (v : Word) : lowByte v = v.setWidth 8 := (BitVec.setWidth_eq_extractLsb' (by decide)).symm

theorem highByte_eq (v : Word) : highByte v = (v >>> 8).setWidth 8 := by
  ext i hi
  simp [highByte]

/-- Settles O6: by what an accepted word does to OUT, and because a step over a reset leads to a reset state. -/
theorem outIsAppendOnly : Obligations.OutIsAppendOnly := by
  refine ⟨fun s t w rest hc hh h => ?_, fun s t hc hh h => ?_, fun s ws rest hor hh => ?_⟩
  · rw [step_command hc hh] at h
    rcases acceptWord_emits h with ⟨hw, rfl⟩ | ⟨hw, ht⟩
    · simp [hw, lowByte_eq, highByte_eq]
    · simpa [hw] using ht
  · rw [step_running hc, runStep, hh] at h
    cases h; rfl
  · refine ⟨State.resetOf s.build rest, ?_, rfl⟩
    rcases hor with rfl | hc
    · exact step_reset hh
    · exact step_halted_reset hc hh

/-- Settles O7: by the frame of T, 0x500 being the one word of TGEN. -/
theorem tableIsWrittenOnlyByTgenWhenEmpty : Obligations.TableIsWrittenOnlyByTgenWhenEmpty := by
  intro s t w rest hc hh h hor k
  rw [step_command hc hh] at h
  rcases acceptWord_execCase h with ⟨i, hd, hx⟩ | ⟨-, rfl⟩
  · have hi : i ≠ .tgen ∨ (s.setHost rest).tstate ≠ .empty := by
      refine hor.imp_left fun hw => ?_
      rintro rfl
      exact hw (encode_of_decode hd).symm
    rw [hx.table_eq hi, State.setHost_table]
  · rfl

/-- Settles O8: case by case of the decoded command; an UPDT that completes reads the correct entry, so that its step is
the bitwise one. -/
theorem accIsWrittenBySeedAndUpdatesOnly : Obligations.AccIsWrittenBySeedAndUpdatesOnly := by
  intro s t w rest hs hc hh h
  rw [step_command hc hh] at h
  rcases acceptWord_execCase h with ⟨i, hd, hx⟩ | ⟨⟨e, hd⟩, rfl⟩
  · cases hx with
    | init ht => subst ht; exact .inl ⟨hd, rfl⟩
    | updb b ht => subst ht; exact .inr (.inl ⟨b, .inl hd, rfl⟩)
    | updt b entry hv hr ht =>
      subst ht
      obtain rfl := Option.some.inj (hr.symm.trans (hs.verified_correct hv _))
      exact .inr (.inl ⟨b, .inr ⟨hd, hv⟩, tableStep_eq_updB _ _⟩)
    | updtNotReady b hv ht => subst ht; exact .inr (.inr ⟨by simp [hd, show s.tstate ≠ .verified from hv], rfl⟩)
    | _ => subst t; exact .inr (.inr ⟨by simp [hd], by simp⟩)
  · exact .inr (.inr ⟨by simp [hd], rfl⟩)

end Sys2Proof.Machine
end

section
/-! PROOFS. The two handshakes (R34, R35): when a word is accepted and a byte taken, and what either does. -/

namespace Sys2Proof.Machine

/-- When a word is accepted (R34). -/
theorem PortState.accepts_eq_some {p : PortState} {i : PinsIn} {w : CmdWord} :
    p.accepts i = some w ↔ p.cmdReady i.rst = true ∧ i.cmdValid = true ∧ i.cmd = w := by
  simp [PortState.accepts, and_assoc]

/-- When cmd_ready is 1 (R34, R160). -/
theorem PortState.cmdReady_eq_true {p : PortState} {rst : Bool} :
    p.cmdReady rst = true ↔ rst = false ∧ p.core.cause = .none ∧ p.phase = .ready := by
  simp [PortState.cmdReady, and_assoc]

/-- Nothing is accepted while cmd_ready is 0 (R34). -/
theorem PortState.accepts_of_not_ready {p : PortState} {i : PinsIn} (h : p.cmdReady i.rst = false) :
    p.accepts i = none := by
  simp [PortState.accepts, h]

/-- The edge that accepts a word puts it in progress and does nothing else (R34; log entry 19). -/
theorem PortState.edge_of_accepts {p : PortState} {i : PinsIn} {w : CmdWord} (h : p.accepts i = some w) :
    p.edge i = .next (p.goOn (.running w (Config.runEdges p.edges))) := by
  obtain ⟨hrst, -, hready⟩ := PortState.cmdReady_eq_true.mp (PortState.accepts_eq_some.mp h).1
  simp [PortState.edge, hrst, PortState.runEdge, hready, h]

/-- An edge depends on the inputs through rst, out_ready and the word accepted alone. -/
theorem PortState.edge_congr {p : PortState} {i i' : PinsIn} (hrst : i'.rst = i.rst)
    (hready : i'.outReady = i.outReady) (ha : p.accepts i' = p.accepts i) : p.edge i' = p.edge i := by
  simp only [PortState.edge, PortState.runEdge, hrst, hready, ha]

/-- Settles O52: from when cmd_ready is 1, and because an edge sees cmd_valid and cmd through the accepted word alone. -/
theorem commandHandshake : Obligations.CommandHandshake := by
  refine ⟨fun p i w => ?_, fun p i w h => ?_, fun p rst h => ?_, fun p hc hp => ?_, fun p i i' h hrst hready => ?_⟩
  · rw [PortState.accepts_eq_some]
    refine ⟨fun ⟨hready, hvalid, hw⟩ => ⟨(PortState.cmdReady_eq_true.mp hready).1, hvalid, hready, hw⟩, ?_⟩
    exact fun ⟨_, hvalid, hready, hw⟩ => ⟨hready, hvalid, hw⟩
  · exact ⟨_, PortState.edge_of_accepts h, rfl, rfl, rfl⟩
  · refine Bool.eq_false_iff.mpr fun hready => ?_
    obtain ⟨-, hc, hp⟩ := PortState.cmdReady_eq_true.mp hready
    rw [hp, hc] at h
    exact h.elim (· rfl) (·.elim (· rfl) (· rfl))
  · exact PortState.cmdReady_eq_true.mpr ⟨rfl, hc, hp⟩
  · refine PortState.edge_congr hrst hready ?_
    have h' : p.cmdReady i'.rst = false := hrst.symm ▸ h
    rw [PortState.accepts_of_not_ready h, PortState.accepts_of_not_ready h']

/-- When a byte is on offer (R35, R160). -/
theorem PortState.outValid_eq_true {p : PortState} {rst : Bool} :
    p.outValid rst = true ↔ rst = false ∧ ∃ b bs, p.phase = .delivering (b :: bs) 0 := by
  simp [PortState.outValid, Option.isSome_iff_exists, Phase.offered_some]

/-- out_data shows the byte on offer (R35). -/
theorem PortState.outData_of_offers {p : PortState} {rst : Bool} {b : Byte} {bs : List Byte} (hrst : rst = false)
    (hp : p.phase = .delivering (b :: bs) 0) : (p.pins rst).outData = b := by
  simp [PortState.pins, PortState.outValid, hrst, hp, Phase.offered]

/-- When a byte is taken (R35). -/
theorem PortState.takes_eq_some {p : PortState} {i : PinsIn} {b : Byte} :
    p.takes i = some b ↔ i.rst = false ∧ i.outReady = true ∧ ∃ bs, p.phase = .delivering (b :: bs) 0 := by
  rw [← Phase.offered_some]
  cases ho : p.phase.offered with
  | none => simp [PortState.takes_none i ho]
  | some c => simp [PortState.takes, PortState.outValid, ho, and_assoc]

/-- The edge at which a byte is on offer delivers it or leaves it on offer, as out_ready says (R35; log entry 21). -/
theorem PortState.edge_of_offers {p : PortState} {i : PinsIn} {b : Byte} {bs : List Byte} (hrst : i.rst = false)
    (hp : p.phase = .delivering (b :: bs) 0) : p.edge i = .next (p.deliver b bs i.outReady) := by
  simp [PortState.edge, hrst, PortState.runEdge, hp]

/-- A byte that is taken was the first that waited and goes to those heard; the others still wait. -/
theorem PortState.edge_of_takes {p p' : PortState} {i : PinsIn} {b : Byte} (he : p.edge i = .next p')
    (h : p.takes i = some b) : p'.heard = p.heard ++ [b] ∧ p.phase.waiting = b :: p'.phase.waiting := by
  obtain ⟨hrst, hready, bs, hp⟩ := PortState.takes_eq_some.mp h
  rw [PortState.edge_of_offers hrst hp, hready] at he
  cases he
  exact ⟨rfl, by simp [PortState.deliver, hp]⟩

/-- Where no byte is taken, none is heard, and those that wait go on waiting unless a reset comes. -/
theorem PortState.edge_of_takes_none {p p' : PortState} {i : PinsIn} (he : p.edge i = .next p')
    (h : p.takes i = none) :
    p'.heard = p.heard ∧ (i.rst = false → p.phase.waiting ≠ [] → p'.phase.waiting = p.phase.waiting) := by
  rcases PortState.edge_cases he with ⟨hr, rfl⟩ |
    ⟨hr, ⟨w, ha, rfl⟩ | ⟨w, t, hp, ht, rfl⟩ | ⟨b, bs, hp, rfl⟩ | ⟨ph, hw, rfl⟩⟩
  · exact ⟨rfl, fun hrst => by simp [hrst] at hr⟩
  · exact ⟨rfl, fun _ hne => by simp [(PortState.accepts_ready ha).1] at hne⟩
  · exact ⟨rfl, fun _ hne => by simp [hp] at hne⟩
  · have hready : i.outReady = false := by
      by_contra hready
      have := PortState.takes_eq_some.mpr ⟨hr, by simpa using hready, bs, hp⟩
      rw [h] at this; cases this
    rw [hready]
    exact ⟨rfl, fun _ _ => rfl⟩
  · exact ⟨rfl, fun _ _ => hw.waiting⟩

/-- A byte that is on offer at an edge without reset and is not taken stays on offer. -/
theorem PortState.edge_keeps_offer {p p' : PortState} {i : PinsIn} (he : p.edge i = .next p')
    (hv : p.outValid i.rst = true) (hready : i.outReady = false) : p'.phase = p.phase := by
  obtain ⟨hrst, b, bs, hp⟩ := PortState.outValid_eq_true.mp hv
  rw [PortState.edge_of_offers hrst hp, hready] at he
  cases he; rfl

/-- Settles O53: at an edge either the first byte that waits is taken, or none is and none is lost. -/
theorem outputHandshake : Obligations.OutputHandshake := by
  refine ⟨fun p i b => ?_, fun p p' i hinv he => ⟨?_, ?_, ?_, ?_, ?_, ?_, hinv.waiting_le_two⟩⟩
  · rw [PortState.takes_eq_some]
    refine and_congr_right fun hrst => and_congr_right fun _ => ?_
    constructor
    · rintro ⟨bs, hp⟩
      exact ⟨PortState.outValid_eq_true.mpr ⟨hrst, b, bs, hp⟩, PortState.outData_of_offers hrst hp⟩
    · rintro ⟨hv, hb⟩
      obtain ⟨-, c, bs, hp⟩ := PortState.outValid_eq_true.mp hv
      obtain rfl : c = b := (PortState.outData_of_offers hrst hp).symm.trans hb
      exact ⟨bs, hp⟩
  · cases ht : p.takes i with
    | none => rw [(PortState.edge_of_takes_none he ht).1]; exact (List.append_nil _).symm
    | some b => exact (PortState.edge_of_takes he ht).1
  · exact fun b ht => (PortState.edge_of_takes he ht).2
  · exact fun _ hv hready => PortState.edge_keeps_offer he hv hready
  · exact fun hrst ht => (PortState.edge_of_takes_none he ht).2 hrst
  · intro hw
    refine Bool.eq_false_iff.mpr fun hv => ?_
    obtain ⟨-, b, bs, hp⟩ := PortState.outValid_eq_true.mp hv
    rw [hp] at hw; cases hw
  · intro hw
    refine Bool.eq_false_iff.mpr fun hready => hw ?_
    rw [(PortState.cmdReady_eq_true.mp hready).2.2, Phase.waiting_ready]

end Sys2Proof.Machine
end

section
/-! PROOFS. The fields of an encoded word, the decoder on it, and the match and mask rows of R70: a word fits a row
exactly when it is the word of an instruction of the row's mnemonic. -/

namespace Sys2Proof

@[simp] theorem opField_formatB (op : BitVec 4) (b : Byte) : opField (formatB op b) = op :=
  BitVec.extractLsb'_append_eq_left

@[simp] theorem argField_formatB (op : BitVec 4) (b : Byte) : argField (formatB op b) = b :=
  BitVec.extractLsb'_append_eq_right

/-- A format-Z word is the format-B word of argument zero, so the field lemmas of format B serve both (R61). -/
@[simp] theorem formatZ_eq (op : BitVec 4) : formatZ op = formatB op 0#8 := rfl

@[simp] theorem decodeZ_zero (i : Instr) : decodeZ 0#8 i = .ok i := rfl

/-- The decoder undoes the encoder (R68). -/
@[simp] theorem decode_encode (i : Instr) : decode (encode i) = .ok i := by
  cases i <;> simp [encode, decode]

/-- A word has one meaning, and an instruction one word (R68). -/
theorem decode_eq_ok_iff {w : CmdWord} {i : Instr} : decode w = .ok i ↔ encode i = w :=
  ⟨encode_of_decode, fun h => h ▸ decode_encode i⟩

theorem encode_injective : Function.Injective encode := fun i j h =>
  Except.ok.inj ((decode_encode i).symm.trans ((congrArg decode h).trans (decode_encode j)))

/-- The number of a word by its fields: the opcode is the upper four bits, the argument the lower eight (R60). -/
theorem toNat_formatB (op : BitVec 4) (b : Byte) : (formatB op b).toNat = op.toNat * 256 + b.toNat := by
  rw [formatB, BitVec.toNat_append, ← Nat.shiftLeft_add_eq_or_of_lt b.isLt, Nat.shiftLeft_eq]

/-- Settles O9: the decoder undoes the encoder, and no instruction is ill formed. -/
theorem decodeOfEncodeIsTheInstruction : Obligations.DecodeOfEncodeIsTheInstruction :=
  fun i => ⟨by cases i <;> rfl, decode_encode i⟩

/-- Settles O10: the encoder undoes the decoder. -/
theorem encodeOfDecodeIsTheWord : Obligations.EncodeOfDecodeIsTheWord := fun _ _ => encode_of_decode

/-- Settles O12: each word is closed, and the decoder evaluates on it. -/
theorem sampleWordsDecodeAsListed : Obligations.SampleWordsDecodeAsListed := by
  unfold Obligations.SampleWordsDecodeAsListed
  decide

/-- The mask of a format-B row keeps the opcode and clears the argument. -/
theorem formatB_and_opMask (op : BitVec 4) (b : Byte) : formatB op b &&& 0xF00#12 = formatB op 0#8 := by
  rw [show (0xF00#12 : CmdWord) = BitVec.allOnes 4 ++ 0#8 from rfl, formatB, BitVec.and_append, BitVec.and_allOnes,
    BitVec.and_zero, formatB]

/-- A word under the mask of a format-B row is the row's match value exactly when its opcode is the row's. -/
theorem and_opMask_eq_iff {w : CmdWord} {op : BitVec 4} :
    w &&& 0xF00#12 = formatB op 0#8 ↔ ∃ b, formatB op b = w := by
  constructor
  · intro h
    rw [← formatB_of_fields (w := w) rfl, formatB_and_opMask] at h
    exact ⟨argField w, formatB_of_fields (by simpa using congrArg opField h)⟩
  · rintro ⟨b, rfl⟩
    exact formatB_and_opMask op b

/-- The mask of a format-Z row keeps the whole word. -/
theorem and_wordMask (w : CmdWord) : w &&& 0xFFF#12 = w := BitVec.and_allOnes

/-- The word of an instruction fits a row of its mnemonic (R63, R70). -/
theorem encode_fits_row (i : Instr) :
    ∃ r ∈ matchRows, encode i &&& r.mask = r.pattern ∧ r.mnemonic = i.mnemonic := by
  cases i with
  | init => exact ⟨⟨"INIT", 0x100#12, 0xFFF#12⟩, by decide, and_wordMask _, rfl⟩
  | updt b => exact ⟨⟨"UPDT", 0x200#12, 0xF00#12⟩, by decide, formatB_and_opMask _ b, rfl⟩
  | updb b => exact ⟨⟨"UPDB", 0x300#12, 0xF00#12⟩, by decide, formatB_and_opMask _ b, rfl⟩
  | emit => exact ⟨⟨"EMIT", 0x400#12, 0xFFF#12⟩, by decide, and_wordMask _, rfl⟩
  | tgen => exact ⟨⟨"TGEN", 0x500#12, 0xFFF#12⟩, by decide, and_wordMask _, rfl⟩
  | tver => exact ⟨⟨"TVER", 0x600#12, 0xFFF#12⟩, by decide, and_wordMask _, rfl⟩

/-- A word that fits a row is the word of an instruction of the row's mnemonic (R63, R70). -/
theorem exists_encode_of_fits {w : CmdWord} {r : MatchRow} (hr : r ∈ matchRows) (hw : w &&& r.mask = r.pattern) :
    ∃ i : Instr, r.mnemonic = i.mnemonic ∧ encode i = w := by
  simp only [matchRows, List.mem_cons, List.not_mem_nil, or_false] at hr
  rcases hr with rfl | rfl | rfl | rfl | rfl | rfl
  · exact ⟨.init, rfl, hw.symm.trans (and_wordMask w)⟩
  · obtain ⟨b, hb⟩ := and_opMask_eq_iff (op := 0x2#4).mp hw; exact ⟨.updt b, rfl, hb⟩
  · obtain ⟨b, hb⟩ := and_opMask_eq_iff (op := 0x3#4).mp hw; exact ⟨.updb b, rfl, hb⟩
  · exact ⟨.emit, rfl, hw.symm.trans (and_wordMask w)⟩
  · exact ⟨.tgen, rfl, hw.symm.trans (and_wordMask w)⟩
  · exact ⟨.tver, rfl, hw.symm.trans (and_wordMask w)⟩

/-- A word fits some row exactly when it is the word of an instruction. -/
theorem fits_row_iff {w : CmdWord} : (∃ r ∈ matchRows, w &&& r.mask = r.pattern) ↔ ∃ i, encode i = w := by
  constructor
  · rintro ⟨r, hr, hw⟩
    obtain ⟨i, -, hi⟩ := exists_encode_of_fits hr hw
    exact ⟨i, hi⟩
  · rintro ⟨i, rfl⟩
    obtain ⟨r, hr, hfits, -⟩ := encode_fits_row i
    exact ⟨r, hr, hfits⟩

/-- A mnemonic has one row. -/
theorem nodup_mnemonics : (matchRows.map MatchRow.mnemonic).Nodup := by decide

/-- The rows are disjoint: a word that fits two rows is the word of one instruction, which has one mnemonic (R70). -/
theorem row_eq_of_fits {w : CmdWord} {r r' : MatchRow} (hr : r ∈ matchRows) (hr' : r' ∈ matchRows)
    (hw : w &&& r.mask = r.pattern) (hw' : w &&& r'.mask = r'.pattern) : r = r' := by
  obtain ⟨i, hm, hi⟩ := exists_encode_of_fits hr hw
  obtain ⟨j, hm', hj⟩ := exists_encode_of_fits hr' hw'
  obtain rfl : i = j := encode_injective (hi.trans hj.symm)
  exact List.inj_on_of_nodup_map nodup_mnemonics hr hr' (hm.trans hm'.symm)

/-- The legal words of R70 are the words of the instructions. -/
theorem legalWord_iff {w : CmdWord} : legalWord w = true ↔ ∃ i, encode i = w := by
  rw [← fits_row_iff]
  simp [legalWord, MatchRow.fits]

/-- The instructions with every operand: four of format Z, 256 and 256 of format B (R70). -/
def allInstrs : List Instr :=
  [Instr.init, .emit, .tgen, .tver] ++ (Machine.tableIndices.map Instr.updt ++ Machine.tableIndices.map Instr.updb)

@[simp] theorem mem_allInstrs (i : Instr) : i ∈ allInstrs := by
  cases i <;> simp [allInstrs]

theorem length_allInstrs : allInstrs.length = 516 := by
  simp [allInstrs, Machine.tableIndices]

/-- The bytes are distinct because they rise. -/
theorem nodup_tableIndices : Machine.tableIndices.Nodup :=
  Machine.tableIndices_rising.imp fun h heq => absurd (congrArg BitVec.toNat heq) h.ne

theorem nodup_allInstrs : allInstrs.Nodup := by
  have hupdt : (Machine.tableIndices.map Instr.updt).Nodup := nodup_tableIndices.map fun _ _ => Instr.updt.inj
  have hupdb : (Machine.tableIndices.map Instr.updb).Nodup := nodup_tableIndices.map fun _ _ => Instr.updb.inj
  refine List.Nodup.append (by decide) (hupdt.append hupdb ?_) ?_
  · simp [List.Disjoint]
  · simp [List.Disjoint]

/-- The numbers below 4096 of the legal words are the numbers of the words of the instructions, each once. -/
theorem legalNumbers_perm :
    ((List.range 4096).filter fun n => legalWord (BitVec.ofNat 12 n)).Perm
      (allInstrs.map fun i => (encode i).toNat) := by
  have hinj : Function.Injective fun i => (encode i).toNat := fun _ _ h => encode_injective (BitVec.eq_of_toNat_eq h)
  refine (List.perm_ext_iff_of_nodup (List.nodup_range.filter _) (nodup_allInstrs.map hinj)).mpr fun n => ?_
  simp only [List.mem_filter, List.mem_range, List.mem_map, mem_allInstrs, true_and, legalWord_iff]
  constructor
  · rintro ⟨hn, i, hi⟩
    exact ⟨i, by rw [hi, BitVec.toNat_ofNat, Nat.mod_eq_of_lt hn]⟩
  · rintro ⟨i, rfl⟩
    exact ⟨(encode i).isLt, i, by simp⟩

/-- Settles O11: decoding and fitting a row both say that the word is the word of an instruction, and there are 516
instructions. -/
theorem decoderAgreesWithMatchAndMask : Obligations.DecoderAgreesWithMatchAndMask := by
  refine ⟨fun w => ?_, fun w i h => ?_, fun w r hr r' hr' => row_eq_of_fits hr hr', ?_⟩
  · rw [fits_row_iff]
    exact exists_congr fun i => decode_eq_ok_iff
  · obtain rfl := encode_of_decode h
    exact encode_fits_row i
  · rw [List.countP_eq_length_filter, legalNumbers_perm.length_eq, List.length_map, length_allInstrs]

end Sys2Proof

namespace Sys2Proof.Machine

/-- A word with a reserved opcode, or with a format-Z opcode and a non-zero argument, is the word of no instruction
(R65, R66). -/
theorem encode_legal_fields (i : Instr) :
    ¬(((encode i).toNat / 256 = 0 ∨ 7 ≤ (encode i).toNat / 256) ∨
      ((encode i).toNat / 256 ∈ [1, 4, 5, 6] ∧ (encode i).toNat % 256 ≠ 0)) := by
  cases i with
  | updt b | updb b =>
    have hb := b.isLt
    simp only [encode, toNat_formatB, List.mem_cons, List.not_mem_nil, or_false, BitVec.toNat_ofNat]
    omega
  | _ => decide

/-- Settles O13: such a word is the word of no instruction, so it does not decode, and accepting it is raising
IllegalCmd. -/
theorem illegalWordRaisesIllegalCmd : Obligations.IllegalWordRaisesIllegalCmd := by
  intro s w rest hc hh hw
  rw [step_command hc hh]
  rcases acceptWord_cases w (s.setHost rest) with ⟨i, hd, -⟩ | ⟨e, -, ha⟩
  · obtain rfl := encode_of_decode hd
    exact absurd hw (encode_legal_fields i)
  · exact ha

end Sys2Proof.Machine
end

section
/-! PROOFS. The assembler on the line written for an instruction (R71). -/

namespace Sys2Proof.Machine

/-- A text that can stand as one field of a line: not empty, with no blank and no start of a comment in it. -/
def IsField (f : List Char) : Prop := f ≠ [] ∧ ∀ c ∈ f, isBlank c = false ∧ c ≠ '#'

/-- Characters that are no blanks are read into the current field. -/
theorem fieldsFrom_append {f : List Char} (hf : ∀ c ∈ f, isBlank c = false) (cur l : List Char) :
    fieldsFrom cur (f ++ l) = fieldsFrom (f.reverse ++ cur) l := by
  induction f generalizing cur with
  | nil => rfl
  | cons c f ih =>
    obtain ⟨hc, hf⟩ := List.forall_mem_cons.mp hf
    simp [fieldsFrom, hc, ih hf]

theorem stripComment_eq_self {l : List Char} (h : ∀ c ∈ l, c ≠ '#') : stripComment l = l :=
  List.takeWhile_eq_self_iff.mpr fun c hc => bne_iff_ne.mpr (h c hc)

/-- Two fields parted by one blank are the fields of the line. -/
theorem lineFields_pair {f g : List Char} (hf : IsField f) (hg : IsField g) : lineFields (f ++ ' ' :: g) = [f, g] := by
  obtain ⟨hf0, hf⟩ := hf
  obtain ⟨hg0, hg⟩ := hg
  have hstrip : stripComment (f ++ ' ' :: g) = f ++ ' ' :: g := by
    refine stripComment_eq_self (List.forall_mem_append.mpr ⟨fun c hc => (hf c hc).2, ?_⟩)
    exact List.forall_mem_cons.mpr ⟨by decide, fun c hc => (hg c hc).2⟩
  have hlast : fieldsFrom [] g = [g] := by
    simpa [fieldsFrom, hg0] using fieldsFrom_append (fun c hc => (hg c hc).1) [] []
  rw [lineFields, hstrip, fieldsFrom_append fun c hc => (hf c hc).1]
  simp [fieldsFrom, isBlank, hf0, hlast]

theorem hexDigit_in_field : ∀ v : BitVec 4, isBlank (hexDigit v) = false ∧ hexDigit v ≠ '#' := by decide

theorem digitValue_hexDigit : ∀ v : BitVec 4, digitValue 16 (hexDigit v) = some v.toNat := by decide

theorem isField_showByte (b : Byte) : IsField (showByte b) := by
  refine ⟨List.cons_ne_nil _ _, ?_⟩
  simp only [showByte, List.forall_mem_cons]
  exact ⟨by decide, by decide, hexDigit_in_field _, hexDigit_in_field _, nofun⟩

/-- The two digits of a byte are its two halves, the upper one first. -/
theorem number_showByte (b : Byte) : number (showByte b) = some b.toNat := by
  have hb := b.isLt
  simp only [showByte, number, digitsFrom, digitValue_hexDigit, BitVec.extractLsb'_toNat, Nat.shiftRight_eq_div_pow]
  congr 1
  omega

theorem operand_showByte (b : Byte) : operand (showByte b) = some b := by
  simp [operand, number_showByte, b.isLt]

/-- A line of a format-B mnemonic `m`, one that stands for the command `f` of its operand, and a byte. -/
theorem assembleLine_showByte {m : List Char} {f : Byte → Instr} (hm : IsField m)
    (hf : ∀ n, commandsOf [m, n] = (operand n).map fun b => [f b]) (b : Byte) :
    assembleLine (m ++ ' ' :: showByte b) = some [encode (f b)] := by
  rw [assembleLine, lineFields_pair hm (isField_showByte b)]
  simp [hf, operand_showByte, wordsOf]

/-- Settles O15: a format-Z line is one closed text; a format-B line has two fields, the second of which is read as the
byte it was written for. -/
theorem assembledLineIsTheWord : Obligations.AssembledLineIsTheWord := by
  intro i
  cases i with
  | updt b => exact assembleLine_showByte (m := ['U', 'P', 'D', 'T']) (by simp [IsField, isBlank]) (fun _ => rfl) b
  | updb b => exact assembleLine_showByte (m := ['U', 'P', 'D', 'B']) (by simp [IsField, isBlank]) (fun _ => rfl) b
  | init | emit | tgen | tver => rfl

end Sys2Proof.Machine
end

section
/-! PROOFS. INIT and EMIT (R80, R82): what each answers in every state, and the two bytes EMIT sends. -/

namespace Sys2Proof.Machine

theorem exec_init (s : State) : exec .init s = .next (s.setAcc Config.seed) := rfl

theorem exec_emit (s : State) : exec .emit s = .next ((s.emit (lowByte s.acc)).emit (highByte s.acc)) := rfl

/-- Two bytes emitted one after the other stand at the end of OUT in that order (R26). -/
theorem State.emit_emit (s : State) (b c : Byte) : (s.emit b).emit c = { s with out := s.out ++ [b, c] } := by
  simp [State.emit]

/-- A word is the quotient and the remainder of its number by 256, which are its two bytes (R43). -/
theorem toNat_highByte_lowByte (v : Word) : (highByte v).toNat * 256 + (lowByte v).toNat = v.toNat := by
  have hhigh : (highByte v).toNat = v.toNat / 256 := by
    have hv := v.isLt
    rw [highByte, BitVec.extractLsb'_toNat, Nat.shiftRight_eq_div_pow]
    omega
  have hlow : (lowByte v).toNat = v.toNat % 256 := BitVec.extractLsb'_toNat 0 8 v
  rw [hhigh, hlow, Nat.div_add_mod']

/-- Settles O16: INIT writes the seed into ACC, and a word decodes to INIT exactly when it is the word of INIT. -/
theorem initSeedsTheAccumulator : Obligations.InitSeedsTheAccumulator :=
  ⟨exec_init, rfl, fun _ => decode_eq_ok_iff.trans eq_comm⟩

/-- Settles O17: EMIT emits the low byte and then the high byte, the two make up ACC, and a word decodes to EMIT exactly
when it is the word of EMIT. -/
theorem emitAppendsLowByteThenHighByte : Obligations.EmitAppendsLowByteThenHighByte :=
  ⟨fun s => (exec_emit s).trans (congrArg _ (s.emit_emit _ _)), toNat_highByte_lowByte,
    fun _ => decode_eq_ok_iff.trans eq_comm⟩

end Sys2Proof.Machine
end

section
/-! PROOFS. UPDT (R90, R91): the halves of UpdT, its equality with UpdB on the correct table (R92), the word of UPDT and
what it answers in each table state. -/

namespace Sys2Proof

/-- A format-B word is its opcode in place OR the widened byte (R62, R63). -/
theorem formatB_eq_or (op : BitVec 4) (b : Byte) : formatB op b = formatB op 0#8 ||| b.setWidth 12 := by
  have hzero : (0#4 ++ b : CmdWord) = b.setWidth 12 := (BitVec.setWidth_eq_append (by decide)).symm
  rw [← hzero, formatB, formatB, BitVec.or_append, BitVec.or_zero, BitVec.zero_or]

/-- A word decodes to UPDT of a byte exactly when it is 0x200 OR that byte (R63, R91). -/
theorem decode_eq_updt_iff {w : CmdWord} {b : Byte} : decode w = .ok (.updt b) ↔ w = 0x200#12 ||| b.setWidth 12 := by
  rw [decode_eq_ok_iff, eq_comm, encode, formatB_eq_or]
  rfl

end Sys2Proof

namespace Sys2Proof.Machine

theorem highByte_xor (x y : Word) : highByte (x ^^^ y) = highByte x ^^^ highByte y := BitVec.extractLsb'_xor

/-- A word shifted by eight has nothing in its upper half. -/
theorem highByte_shiftRight (a : Word) : highByte (a >>> 8) = 0#8 := by
  ext i hi
  simpa [highByte] using a.getLsbD_of_ge (8 + (8 + i)) (by omega)

/-- A word shifted by eight has its upper half as its low byte (R43). -/
theorem lowByte_shiftRight (a : Word) : lowByte (a >>> 8) = highByte a := by
  rw [lowByte_eq, highByte_eq]

/-- Bits 15:8 of the stepped accumulator are those of the entry (R90). -/
theorem highByte_tableStep (a entry : Word) : highByte (tableStep a entry) = highByte entry := by
  rw [tableStep, highByte_xor, highByte_shiftRight, BitVec.zero_xor]

/-- Bits 7:0 of the stepped accumulator are ACC[15:8] XOR those of the entry (R90). -/
theorem lowByte_tableStep (a entry : Word) : lowByte (tableStep a entry) = highByte a ^^^ lowByte entry := by
  rw [tableStep, lowByte_xor, lowByte_shiftRight]

/-- Settles O18: the index is `tableIndex_eq`, and each half of the result is that half of the step by the entry. -/
theorem updTIsOneLookupAndTwoXors : Obligations.UpdTIsOneLookupAndTwoXors := by
  intro tbl a b
  rw [← tableIndex_eq, ← lowByte_eq]
  exact ⟨rfl, rfl, highByte_tableStep a _, lowByte_tableStep a _⟩

/-- Settles O21: by linearity of the reduction, a step by the entry of the low byte is the reduction of the whole. -/
theorem tableStepEqualsBitwiseStep : Obligations.TableStepEqualsBitwiseStep := tableStep_eq_updB

/-- UPDT on a VERIFIED table with the table invariant takes ACC to UpdT of the correct table (R91). -/
theorem State.TableInv.exec_updt {s : State} (h : s.TableInv) (hv : s.tstate = .verified) (b : Byte) :
    Machine.exec (.updt b) s = .next (s.setAcc (updT tableEntry s.acc b)) :=
  exec_updt_written hv (h.verified_correct hv _)

/-- Settles O19: by TSTATE, what UPDT answers, and because UPDT of a byte has one word. -/
theorem updtUsesAVerifiedTableOnly : Obligations.UpdtUsesAVerifiedTableOnly := by
  unfold Obligations.UpdtUsesAVerifiedTableOnly
  simp only [← tableIndex_eq]
  exact ⟨fun _ _ _ => exec_updt_written, fun _ b hs hv => hs.exec_updt hv b, fun _ b => exec_updt_notReady b,
    fun _ _ => decode_eq_updt_iff⟩

end Sys2Proof.Machine
end

section
/-! PROOFS. The bitwise strategy (R100 to R105): Step1 bit by bit, Reduce8 as eight steps, the table entry, and UPDB. -/

namespace Sys2Proof

/-- A word decodes to UPDB of a byte exactly when it is 0x300 OR that byte (R63, R104). -/
theorem decode_eq_updb_iff {w : CmdWord} {b : Byte} : decode w = .ok (.updb b) ↔ w = 0x300#12 ||| b.setWidth 12 := by
  rw [decode_eq_ok_iff, eq_comm, encode, formatB_eq_or]
  rfl

end Sys2Proof

namespace Sys2Proof.Machine

/-- Bit k of Step1 is bit k + 1 of the operand, inverted where the tested bit and bit k of the polynomial are 1
(R100). -/
theorem getLsbD_step1 (a : Word) (k : Nat) :
    (step1 a).getLsbD k = (a.getLsbD (k + 1) ^^ (a.getLsbD 0 && Config.polyRefl.getLsbD k)) := by
  rw [step1]
  cases a.getLsbD 0 <;> simp [Nat.add_comm 1 k]

/-- The polynomial is 0xA001: bits 12 to 1 are 0. -/
theorem getLsbD_polyRefl_middle {k : Nat} (h1 : 1 ≤ k) (h12 : k ≤ 12) : Config.polyRefl.getLsbD k = false := by
  have hbits : ∀ k ≤ 12, 1 ≤ k → Config.polyRefl.getLsbD k = false := by decide
  exact hbits k h12 h1

/-- Bits 12 to 1 of Step1 are only shifted. -/
theorem getLsbD_step1_middle (a : Word) {k : Nat} (h1 : 1 ≤ k) (h12 : k ≤ 12) :
    (step1 a).getLsbD k = a.getLsbD (k + 1) := by
  rw [getLsbD_step1, getLsbD_polyRefl_middle h1 h12, Bool.and_false, Bool.xor_false]

/-- Bits 15, 13 and 0, the bits of the polynomial, take the tested bit in. -/
theorem getLsbD_step1_poly (a : Word) {k : Nat} (hk : Config.polyRefl.getLsbD k = true) :
    (step1 a).getLsbD k = (a.getLsbD (k + 1) ^^ a.getLsbD 0) := by
  rw [getLsbD_step1, hk, Bool.and_true]

/-- Bit 14 is no bit of the polynomial. -/
theorem getLsbD_step1_14 (a : Word) : (step1 a).getLsbD 14 = a.getLsbD 15 := by
  rw [getLsbD_step1, show Config.polyRefl.getLsbD 14 = false from rfl, Bool.and_false, Bool.xor_false]

/-- Bit 15 is the tested bit: the shift brings a 0 in. -/
theorem getLsbD_step1_15 (a : Word) : (step1 a).getLsbD 15 = a.getLsbD 0 := by
  rw [getLsbD_step1_poly a rfl, BitVec.getLsbD_of_ge a 16 le_rfl, Bool.false_xor]

theorem step1_zero : step1 0#16 = 0#16 := rfl

/-- Settles O22: each result bit by `getLsbD_step1`, and linearity by `step1_xor`. -/
theorem step1BitsAndLinearity : Obligations.Step1BitsAndLinearity :=
  ⟨fun _ => rfl,
    fun a => ⟨getLsbD_step1_15 a, getLsbD_step1_14 a, getLsbD_step1_poly a rfl, fun _ => getLsbD_step1_middle a,
      getLsbD_step1_poly a rfl⟩,
    step1_xor, step1_zero⟩

/-- Stage k of the pipeline is Step1 iterated k times (R105). -/
theorem stage_eq_iterate (a : Word) (k : Nat) : stage a k = step1^[k] a := by
  induction k with
  | zero => rfl
  | succ k ih => rw [stage, ih, Function.iterate_succ_apply']

/-- Reduce8 is the last stage of the pipeline (R101, R105). -/
theorem reduce8_eq_stage (a : Word) : reduce8 a = stage a 8 := rfl

theorem reduce8_zero : reduce8 0#16 = 0#16 := reduce8_of_lowByte_zero rfl

/-- Settles O23: the pipeline is the iteration, and a zero low byte makes every step a shift. -/
theorem reduce8IsEightLinearSteps : Obligations.Reduce8IsEightLinearSteps :=
  ⟨fun a => ⟨(reduce8_eq_stage a).trans (stage_eq_iterate a 8), reduce8_eq_stage a⟩, reduce8_xor, reduce8_zero,
    fun _ => reduce8_of_lowByte_zero⟩

/-- UPDB from accumulator 0 leaves the table entry of the byte (R102). -/
theorem updB_zero (b : Byte) : updB 0#16 b = tableEntry b := by
  rw [updB, BitVec.zero_xor, tableEntry]

/-- Settles O24: the entry is the step from accumulator 0; the rule's four values are computed. -/
theorem tableEntryIsTheStepFromZero : Obligations.TableEntryIsTheStepFromZero :=
  ⟨fun i => ⟨rfl, (updB_zero i).symm⟩, by decide, by decide, by decide, by decide⟩

/-- UPDB answers in every table state and writes ACC alone (R104). -/
theorem exec_updb (b : Byte) (s : State) : exec (.updb b) s = .next (s.setAcc (updB s.acc b)) := rfl

/-- A byte equal to the low byte of the accumulator cancels it, and the step only shifts (R104). -/
theorem updB_lowByte (a : Word) : updB a (lowByte a) = a >>> 8 := by
  have hlow : lowByte (a ^^^ zext16 (lowByte a)) = 0#8 := by
    rw [lowByte_xor, lowByte_zext16, BitVec.xor_self]
  rw [updB, reduce8_of_lowByte_zero hlow, BitVec.ushiftRight_xor_distrib, zext16_shiftRight, BitVec.xor_zero]

/-- UPDB of the low byte of ACC shifts ACC right by eight (R104). -/
theorem exec_updb_lowByte (s : State) : exec (.updb (lowByte s.acc)) s = .next (s.setAcc (s.acc >>> 8)) := by
  rw [exec_updb, updB_lowByte]

/-- Settles O25: `exec_updb` asks nothing of TSTATE, and UPDB of a byte has one word. -/
theorem updbRunsInEveryTableState : Obligations.UpdbRunsInEveryTableState := by
  refine ⟨fun s b => exec_updb b s, fun _ _ => decode_eq_updb_iff, fun s b hb => ?_, by decide,
    updB_lowByte 0xFFFF#16, updB_lowByte 0x0000#16, by decide⟩
  subst hb
  exact exec_updb_lowByte s

end Sys2Proof.Machine
end

section
/-! PROOFS. TGEN and TVER (R112 to R115): what TVER answers on a LOADED table, the listed entries, and that a step leads
to TableMismatch by a TVER on a wrong table alone. -/

namespace Sys2Proof.Machine

/-- TVER verifies a LOADED table that is correct (R113). -/
theorem exec_tver_correct {s : State} (h : s.tstate = .loaded) (hc : s.table.Correct) :
    exec .tver s = .next (s.setTState .verified) := by
  rcases s.table.verify_spec with ⟨-, hv⟩ | ⟨i, hw, -⟩ | ⟨i, v, hw, -⟩
  · simp only [exec, execTver, h, hv]
  · exact absurd hc hw.not_correct
  · exact absurd hc hw.not_correct

/-- TVER on a LOADED table whose lowest wrong entry is written raises TableMismatch at its index (R113). -/
theorem exec_tver_mismatch {s : State} {i : Byte} (h : s.tstate = .loaded) (hw : s.table.LowestWrong i)
    (hr : s.table.read i ≠ none) : exec .tver s = .next (s.raise (.tableMismatch i)) := by
  rcases s.table.verify_spec with ⟨hc, -⟩ | ⟨j, hj, hread, -⟩ | ⟨j, v, hj, -, -, hv⟩
  · exact absurd hc hw.not_correct
  · exact absurd (hj.unique hw ▸ hread) hr
  · simp only [exec, execTver, h, hv, hj.unique hw]

/-- A table that is not correct has a lowest wrong index. -/
theorem Memory.exists_lowestWrong {m : Memory} (h : ¬ m.Correct) : ∃ i, m.LowestWrong i := by
  rcases m.verify_spec with ⟨hc, -⟩ | ⟨i, hw, -⟩ | ⟨i, v, hw, -⟩
  · exact absurd hc h
  · exact ⟨i, hw⟩
  · exact ⟨i, hw⟩

/-- A table loaded with its status, as one update of the state (R112). -/
theorem State.setTState_setTable (s : State) (m : Memory) (t : TState) :
    (s.setTable m).setTState t = { s with table := m, tstate := t } := rfl

/-- Settles O26: the loop over 0..255 writes every entry and keeps the canonical form, the entry being the step from
accumulator 0; and TGEN has one word. -/
theorem tgenFillsTheTableOnce : Obligations.TgenFillsTheTableOnce := by
  refine ⟨fun s he => ?_, fun _ => exec_tgen_again, fun _ => decode_eq_ok_iff.trans eq_comm⟩
  refine ⟨_, (exec_tgen_empty he).trans (congrArg _ (s.setTState_setTable _ _)), fun i => ?_,
    fun hwf => Memory.wf_fill hwf _ _⟩
  have hread : (s.table.fill tableEntry tableIndices).read i = some (tableEntry i) := s.table.correct_fill i
  have hfold : fold 0x0000#16 [i] = tableEntry i := updB_zero i
  exact ⟨hread, hfold ▸ hread⟩

/-- Settles O27: by TSTATE and by the lowest wrong entry of a LOADED table; and TVER has one word. -/
theorem tverVerifiesOrHalts : Obligations.TverVerifiesOrHalts := by
  refine ⟨fun _ => exec_tver_empty, fun _ => exec_tver_correct, fun s i v hl hr hv hlow => ?_,
    fun _ => exec_tver_verified, fun _ => decode_eq_ok_iff.trans eq_comm⟩
  have hw : s.table.LowestWrong i := ⟨by simpa [hr] using hv, hlow⟩
  exact exec_tver_mismatch hl hw (by simp [hr])

/-- Settles O28: the statement is closed, and the kernel computes the 256 entries. -/
theorem tableValuesAsListed : Obligations.TableValuesAsListed := by
  unfold Obligations.TableValuesAsListed
  decide +kernel

/-- A command that leads to TableMismatch leaves in FIDX the lowest wrong index of a LOADED table (R113, R146). -/
theorem ExecCase.lowestWrong_of_mismatch {s t : State} {i : Instr} (hx : ExecCase s t i) (hs : s.cause ≠ .tableMismatch)
    (ht : t.cause = .tableMismatch) : s.tstate = .loaded ∧ s.table.LowestWrong t.fidx := by
  cases hx with
  | tverMismatch j v hl hw _ heq => subst heq; exact ⟨hl, hw⟩
  | _ => subst t; simp [hs] at ht

/-- A step to TableMismatch starts from a LOADED table whose lowest wrong index it leaves in FIDX. -/
theorem step_lowestWrong_of_mismatch {s t : State} (h : step s = .next t) (hs : s.cause ≠ .tableMismatch)
    (ht : t.cause = .tableMismatch) : s.tstate = .loaded ∧ s.table.LowestWrong t.fidx := by
  rcases step_cases h with ⟨-, -, rfl⟩ | ⟨w, rest, -, -, ha⟩ | ⟨rest, -, -, rfl⟩ | ⟨ws, rest, -, -, rfl⟩
  · exact absurd ht hs
  · rcases acceptWord_execCase ha with ⟨i, -, hx⟩ | ⟨-, rfl⟩
    · exact (hx.lowestWrong_of_mismatch hs ht :)
    · cases ht
  · cases ht
  · cases ht

/-- TABLE_ROM as a table holds the correct value at an index exactly when the ROM does. -/
theorem Memory.read_ofRom_eq_tableEntry {rom : Vector Word 256} {i : Byte} :
    (Memory.ofRom rom).read i = some (tableEntry i) ↔ rom[i.toNat]'i.isLt = tableEntry i := by
  rw [Memory.read_ofRom, Option.some_inj]

/-- TVER as the first command after reset of an EMBEDDED build whose ROM is wrong at some index raises TableMismatch at
the lowest such index (R115). -/
theorem step_tver_of_wrong_rom {rom : Vector Word 256} {i : Byte} (h : rom[i.toNat]'i.isLt ≠ tableEntry i) :
    ∃ j, step (State.resetOf (.embedded rom) [.command 0x600#12]) =
      .next ((State.resetOf (.embedded rom) []).raise (.tableMismatch j)) := by
  obtain ⟨j, hj⟩ := Memory.exists_lowestWrong fun hc => h (Memory.read_ofRom_eq_tableEntry.mp (hc i))
  have hwritten : (Memory.ofRom rom).read j ≠ none := by rw [Memory.read_ofRom]; nofun
  have hstep := step_command (s := State.resetOf (.embedded rom) [.command (encode .tver)]) rfl rfl
  exact ⟨j, hstep.trans ((acceptWord_ok (decode_encode .tver) _).trans (exec_tver_mismatch rfl hj hwritten))⟩

/-- Settles O35: a step to TableMismatch finds the table wrong at FIDX; under the table invariant that table is correct
in a GENERATED build and TABLE_ROM in an EMBEDDED one. -/
theorem mismatchNeedsADefectiveRom : Obligations.MismatchNeedsADefectiveRom := by
  refine ⟨fun s t hinv hb hs h ht => ?_, fun s t rom hinv hb hs h ht => ?_, fun rom i hi => ?_⟩
  · obtain ⟨hl, hw⟩ := step_lowestWrong_of_mismatch h hs ht
    exact hw.not_correct (hinv.generated_correct hb (by rw [hl]; nofun))
  · obtain ⟨-, hw⟩ := step_lowestWrong_of_mismatch h hs ht
    rw [(hinv.embedded_rom rom hb).2] at hw
    exact fun hrom => hw.1 (Memory.read_ofRom_eq_tableEntry.mpr hrom)
  · obtain ⟨j, hstep⟩ := step_tver_of_wrong_rom hi
    exact ⟨_, hstep, rfl⟩

end Sys2Proof.Machine
end

section
/-! PROOFS. Runs of a list of commands (R72, R176): a completed command followed by a run is a run, and a run that
reaches a halt goes no further. -/

namespace Sys2Proof.Machine

/-- What the host does to have a list of commands executed (R72). -/
def actionsOf (is : List Instr) : List HostAction := (wordsOf is).map .command

theorem actionsOf_append (is js : List Instr) : actionsOf (is ++ js) = actionsOf is ++ actionsOf js := by
  simp [actionsOf, wordsOf]

/-- A running engine executes a command and then runs over the others. -/
theorem State.RunsOver.cons {s t u : State} {i : Instr} {is : List Instr} (hc : s.cause = .none)
    (h : exec i s = .next t) (h' : t.RunsOver (actionsOf is) u) : s.RunsOver (actionsOf (i :: is)) u :=
  (State.RunsOver.command hc ((acceptWord_ok (decode_encode i) s).trans h)).append h'

/-- Two runs, the second from where the first ends. -/
theorem State.RunsOver.appendCommands {s t u : State} {is js : List Instr} (h : s.RunsOver (actionsOf is) t)
    (h' : t.RunsOver (actionsOf js) u) : s.RunsOver (actionsOf (is ++ js)) u := by
  rw [actionsOf_append]
  exact h.append h'

/-- The run of a list of commands ends where the run over their words leads, with nothing left for the host to do. -/
theorem State.RunsOver.runCommands {s t : State} {is : List Instr} (h : s.RunsOver (actionsOf is) t) :
    runCommands is s = .next (t.setHost []) := by
  have hrun := h.run []
  rwa [List.append_nil, actionsOf, List.length_map] at hrun

/-- A halted engine with only words to come is stuck (R147). -/
theorem step_halted_commands {s : State} {ws : List CmdWord} (hc : s.cause ≠ .none) (hh : s.host = ws.map .command) :
    step s = .fault .halted := by
  rw [step_halted hc, haltedStep]
  rcases afterReset_spec s.host with ⟨hnone, -⟩ | ⟨ws', rest, heq, -⟩
  · rw [hnone]
  · have hmem : HostAction.reset ∈ s.host := by simp [heq]
    simp [hh] at hmem

/-- Commands that lead to a halt end the run of any list that begins with them (R176). -/
theorem State.RunsOver.haltedAfter {s t : State} {is : List Instr} (h : s.RunsOver (actionsOf is) t)
    (hc : t.cause ≠ .none) (rest : List Instr) :
    HaltedAfter is.length (wordsOf (is ++ rest)) s (t.setHost (actionsOf rest)) := by
  have hdrop : ((wordsOf (is ++ rest)).drop is.length).map HostAction.command = actionsOf rest := by
    simp [wordsOf, actionsOf]
  have hrun : runSteps is.length (s.withWords (wordsOf (is ++ rest))) = .next (t.setHost (actionsOf rest)) := by
    have := h.run (actionsOf rest)
    rwa [← actionsOf_append, actionsOf, List.length_map, wordsOf, List.length_map] at this
  exact ⟨by simp [wordsOf], hrun, hc, hdrop.symm, step_halted_commands (s := t.setHost _) hc rfl⟩

end Sys2Proof.Machine
end

section
/-! PROOFS. Fold, Crc and Wire (R125): concatenation, and the residue of a sequence that carries its own result. -/

namespace Sys2Proof.Machine

theorem fold_append (a : Word) (x y : List Byte) : fold a (x ++ y) = fold (fold a x) y := List.foldl_append

/-- The two bytes of an accumulator, low byte first, shift it out (R132). -/
theorem fold_wire (a : Word) : fold a (wire a) = 0x0000#16 := by
  calc fold a (wire a)
      = updB (updB a (lowByte a)) (highByte a) := rfl
    _ = updB (a >>> 8) (lowByte (a >>> 8)) := by rw [updB_lowByte, lowByte_shiftRight]
    _ = a >>> 16 := by rw [updB_lowByte, ← BitVec.shiftRight_add]
    _ = 0x0000#16 := BitVec.ushiftRight_eq_zero le_rfl

/-- Settles O50: the first result byte cancels the low byte of the accumulator, the second what is left. With the bytes
swapped the one byte 0x01 is a counterexample. -/
theorem sequenceWithItsResultHasResidueZero : Obligations.SequenceWithItsResultHasResidueZero := by
  refine ⟨fun data => ?_, [0x01#8], by decide +kernel⟩
  rw [crc, fold_append]
  exact fold_wire (crc data)

/-- Settles O49: the statement is closed and is computed. -/
theorem knownModbusRequestVector : Obligations.KnownModbusRequestVector := by
  unfold Obligations.KnownModbusRequestVector
  decide +kernel

end Sys2Proof.Machine
end

section
/-! PROOFS. Whole computations (R120, R121, R126 to R129): a run of update commands, each of which takes ACC one byte
further by UpdB, folds their bytes into ACC. Both strategies, and any mixture of them, are such runs. -/

namespace Sys2Proof

theorem encode_updt (b : Byte) : encode (.updt b) = 0x200#12 ||| b.setWidth 12 := formatB_eq_or 0x2#4 b

theorem encode_updb (b : Byte) : encode (.updb b) = 0x300#12 ||| b.setWidth 12 := formatB_eq_or 0x3#4 b

end Sys2Proof

namespace Sys2Proof.Machine

/-- The command completes from the state with any accumulator and takes ACC to UpdB of the byte, with no other effect. -/
def State.Updates (s : State) (i : Instr) (b : Byte) : Prop :=
  ∀ a : Word, exec i (s.setAcc a) = .next (s.setAcc (updB a b))

theorem State.updates_updb (s : State) (b : Byte) : s.Updates (.updb b) b := fun a => exec_updb b (s.setAcc a)

/-- UPDT on a VERIFIED table with the table invariant has the effect of UPDB (R92). -/
theorem State.TableInv.updates_updt {s : State} (h : s.TableInv) (hv : s.tstate = .verified) (b : Byte) :
    s.Updates (.updt b) b := fun a => by
  have hinv : (s.setAcc a).TableInv := h.congr rfl rfl rfl
  rw [hinv.exec_updt hv b, updT, tableStep_eq_updB]
  rfl

theorem State.updates_updBs (s : State) (data : List Byte) : List.Forall₂ s.Updates (updBs data) data :=
  List.forall₂_map_left_iff.mpr (List.forall₂_same.mpr fun b _ => s.updates_updb b)

theorem State.TableInv.updates_updTs {s : State} (h : s.TableInv) (hv : s.tstate = .verified) (data : List Byte) :
    List.Forall₂ s.Updates (updTs data) data :=
  List.forall₂_map_left_iff.mpr (List.forall₂_same.mpr fun b _ => h.updates_updt hv b)

/-- A list of update commands, one per byte, folds the bytes into ACC (R125). -/
theorem State.RunsOver.updates {s : State} {is : List Instr} {data : List Byte} (hc : s.cause = .none)
    (h : List.Forall₂ s.Updates is data) (a : Word) :
    (s.setAcc a).RunsOver (actionsOf is) (s.setAcc (fold a data)) := by
  induction h generalizing a with
  | nil => exact .nil _
  | cons hi _ ih => exact .cons hc (hi a) (ih _)

/-- UPD.B folds its bytes into ACC in every table state (R123). -/
theorem State.RunsOver.updBs {s : State} (hc : s.cause = .none) (data : List Byte) :
    s.RunsOver (actionsOf (updBs data)) (s.setAcc (fold s.acc data)) :=
  State.RunsOver.updates hc (s.updates_updBs data) s.acc

/-- EMIT appends the two bytes of ACC to OUT, which is all it does (R82, R83). -/
theorem State.RunsOver.emit {s : State} (hc : s.cause = .none) :
    s.RunsOver (actionsOf [.emit]) { s with out := s.out ++ wire s.acc } :=
  .cons hc ((exec_emit s).trans (congrArg _ (s.emit_emit _ _))) (.nil _)

/-- INIT, update commands for the bytes and EMIT leave Crc in ACC and append its two bytes to OUT (R120, R121). -/
theorem runCommands_computation {s : State} {is : List Instr} {data : List Byte} (hc : s.cause = .none)
    (h : List.Forall₂ s.Updates is data) :
    runCommands (.init :: (is ++ [.emit])) s =
      .next { s with acc := crc data, out := s.out ++ wire (crc data), host := [] } := by
  have hemit := State.RunsOver.emit (s := s.setAcc (crc data)) hc
  have hrun : s.RunsOver (actionsOf (.init :: (is ++ [.emit]))) _ :=
    .cons hc (exec_init s) ((State.RunsOver.updates hc h Config.seed).appendCommands hemit)
  exact hrun.runCommands

/-- The words of INIT, one command per byte and EMIT. -/
theorem wordsOf_computation (f : Byte → Instr) (data : List Byte) :
    wordsOf (.init :: (data.map f ++ [.emit])) = 0x100#12 :: (data.map (fun d => encode (f d)) ++ [0x400#12]) := by
  rw [wordsOf, List.map_cons, List.map_append, List.map_map]
  rfl

/-- CRC16.B completes from every running state (R121). -/
theorem runCommands_crc16B {s : State} (hc : s.cause = .none) (data : List Byte) :
    runCommands (crc16B data) s = .next { s with acc := crc data, out := s.out ++ wire (crc data), host := [] } :=
  runCommands_computation hc (s.updates_updBs data)

/-- CRC16.T completes from every running state with a VERIFIED table and the table invariant (R120). -/
theorem State.TableInv.runCommands_crc16T {s : State} (h : s.TableInv) (hv : s.tstate = .verified)
    (hc : s.cause = .none) (data : List Byte) :
    runCommands (crc16T data) s = .next { s with acc := crc data, out := s.out ++ wire (crc data), host := [] } :=
  runCommands_computation hc (h.updates_updTs hv data)

/-- CRC16.T of a sequence that is not empty halts at its first UPDT where the table is not VERIFIED (R120). -/
theorem crc16T_haltedAfter {s : State} (hc : s.cause = .none) (hv : s.tstate ≠ .verified) (b : Byte)
    (data : List Byte) :
    HaltedAfter 2 (wordsOf (crc16T (b :: data))) s
      (((s.setAcc Config.seed).raise .tableNotReady).setHost (actionsOf (updTs data ++ [.emit]))) := by
  have hrun : s.RunsOver (actionsOf [.init, .updt b]) ((s.setAcc Config.seed).raise .tableNotReady) :=
    .cons hc (exec_init s) (.cons hc (exec_updt_notReady b hv) (.nil _))
  exact hrun.haltedAfter nofun _

/-- Settles O42: every UPDB takes ACC one byte further in every table state, so the run folds the sequence. -/
theorem bitwiseComputationGivesTheCrc : Obligations.BitwiseComputationGivesTheCrc := by
  refine fun data => ⟨?_, fun s hc => runCommands_crc16B hc data⟩
  simp only [← encode_updb]
  exact wordsOf_computation .updb data

/-- Settles O43: on a VERIFIED table every UPDT takes ACC one byte further, and with no byte there is no UPDT; otherwise
the UPDT of the first byte raises TableNotReady right after INIT. -/
theorem tableComputationGivesTheCrc : Obligations.TableComputationGivesTheCrc := by
  refine fun data => ⟨?_, fun s hinv hc hv => ?_, fun s hc hv hne => ?_⟩
  · simp only [← encode_updt]
    exact wordsOf_computation .updt data
  · rcases hv with hv | rfl
    · exact hinv.runCommands_crc16T hv hc data
    · exact runCommands_computation hc .nil
  · cases data with
    | nil => exact absurd rfl hne
    | cons b data => exact ⟨_, crc16T_haltedAfter hc hv b data, rfl, rfl, rfl⟩

/-- Any mixture of UPDT and UPDB on a VERIFIED table is a list of update commands. -/
theorem State.TableInv.updates_mixture {s : State} (h : s.TableInv) (hv : s.tstate = .verified) (mix : List Bool)
    (data : List Byte) (hlen : mix.length = data.length) :
    List.Forall₂ s.Updates (List.zipWith (fun useTable b => if useTable then .updt b else .updb b) mix data) data := by
  induction mix generalizing data with
  | nil => rw [List.length_eq_zero_iff.mp hlen.symm]; exact .nil
  | cons useTable mix ih =>
    cases data with
    | nil => cases hlen
    | cons b data =>
      refine .cons ?_ (ih data (Nat.succ.inj hlen))
      cases useTable with
      | true => exact h.updates_updt hv b
      | false => exact s.updates_updb b

/-- Settles O44: UPDT and UPDB have one effect on a VERIFIED table (R92), so every mixture folds the bytes. -/
theorem strategiesAgreeOnEverySequence : Obligations.StrategiesAgreeOnEverySequence := by
  refine ⟨fun s data mix hinv hv hc hlen => ?_, fun s data hinv hv hc => ?_⟩
  · exact (State.RunsOver.updates hc (hinv.updates_mixture hv mix data hlen) s.acc).runCommands
  · exact ⟨_, hinv.runCommands_crc16T hv hc data, runCommands_crc16B hc data⟩

/-- Settles O46: the words are those of CRC16.B of the empty sequence. -/
theorem emptyInputEmitsTheSeed : Obligations.EmptyInputEmitsTheSeed :=
  ⟨rfl, by decide, fun _ hc => runCommands_crc16B hc []⟩

/-- Settles O47: INIT overwrites ACC, so both runs append the two bytes of Crc of the data. -/
theorem resultDependsOnTheDataAlone : Obligations.ResultDependsOnTheDataAlone := by
  refine fun data s s' hc hc' => ⟨?_, fun hinv hinv' hv hv' => ?_⟩
  · exact ⟨wire (crc data), _, _, runCommands_crc16B hc data, runCommands_crc16B hc' data, rfl, rfl⟩
  · exact ⟨wire (crc data), _, _, hinv.runCommands_crc16T hv hc data, hinv'.runCommands_crc16T hv' hc' data, rfl, rfl⟩

/-- Settles O48: EMIT keeps ACC, so the bytes behind it are folded into the prefix's accumulator. -/
theorem midSequenceEmitReportsThePrefix : Obligations.MidSequenceEmitReportsThePrefix := by
  refine ⟨fold_append, fun data b => fold_append _ data [b], fun s x y hc => ?_⟩
  have hprefix := State.RunsOver.updBs hc x
  have hemit := State.RunsOver.emit (s := s.setAcc (fold s.acc x)) hc
  have hrest := State.RunsOver.updBs (s := { s.setAcc (fold s.acc x) with out := s.out ++ wire (fold s.acc x) }) hc y
  rw [fold_append]
  exact (hprefix.appendCommands (hemit.appendCommands hrest)).runCommands

end Sys2Proof.Machine
end

section
/-! PROOFS. BOOT after reset (R122, R166). -/

namespace Sys2Proof.Machine

/-- TGEN after reset leaves the table LOADED, in both builds (R112). -/
theorem exec_tgen_resetOf (build : Build) (host : List HostAction) :
    ∃ t, exec .tgen (State.resetOf build host) = .next t ∧ t.cause = .none ∧ t.tstate = .loaded ∧ t.TableInv := by
  cases build with
  | generated =>
    have htgen := exec_tgen_empty (s := State.resetOf .generated host) rfl
    exact ⟨_, htgen, rfl, rfl, (State.TableInv.resetOf _ _).exec (exec_cases htgen)⟩
  | embedded rom =>
    exact ⟨_, exec_tgen_again nofun, rfl, rfl, .resetOf _ _⟩

/-- BOOT is its TGEN followed by its TVER (R122). -/
theorem runCommands_boot {s t u : State} (hs : s.cause = .none) (htgen : exec .tgen s = .next t)
    (ht : t.cause = .none) (htver : exec .tver t = .next u) : runCommands boot s = .next (u.setHost []) :=
  have hrun : s.RunsOver (actionsOf boot) u := .cons hs htgen (.cons ht htver (.nil u))
  hrun.runCommands

/-- Settles O45: TGEN leaves a LOADED table, which TVER verifies or halts on; the table of a GENERATED build is then
correct, and that of an EMBEDDED build is TABLE_ROM as before. -/
theorem bootVerifiesTheTable : Obligations.BootVerifiesTheTable := by
  refine ⟨rfl, fun build u hrun hu => ?_, ?_, fun rom hrom => ?_⟩
  · obtain ⟨t, htgen, ht, hl, hinv⟩ := exec_tgen_resetOf build []
    by_cases hcorrect : t.table.Correct
    · rw [runCommands_boot rfl htgen ht (exec_tver_correct hl hcorrect)] at hrun
      cases hrun
      exact ⟨rfl, hcorrect⟩
    · obtain ⟨i, hw⟩ := Memory.exists_lowestWrong hcorrect
      have hwritten := hinv.written (by rw [hl]; nofun) i
      rw [runCommands_boot rfl htgen ht (exec_tver_mismatch hl hw hwritten)] at hrun
      cases hrun
      cases hu
  · obtain ⟨t, htgen, ht, hl, hinv⟩ := exec_tgen_resetOf .generated []
    have hcorrect := hinv.generated_correct (exec_build htgen) (by rw [hl]; nofun)
    exact ⟨_, runCommands_boot rfl htgen ht (exec_tver_correct hl hcorrect), ht⟩
  · have hcorrect : (Memory.ofRom rom).Correct := fun i => Memory.read_ofRom_eq_tableEntry.mpr (hrom i)
    have htgen : exec .tgen (State.resetOf (.embedded rom) []) = .next _ := exec_tgen_again nofun
    exact runCommands_boot rfl htgen rfl (exec_tver_correct rfl hcorrect)

end Sys2Proof.Machine
end

section
/-! PROOFS. Faults (R140 to R146): which command raises which, and that fault entry writes CAUSE and FIDX alone; and the
halted engine, which steps by a reset alone (R147, R148). -/

namespace Sys2Proof.Machine

/-- Only a TableMismatch leaves an index in FIDX (R146). -/
theorem EngineFault.info_eq_zero {f : EngineFault} (h : f.cause ≠ .tableMismatch) : f.info = 0#8 := by
  cases f with
  | tableMismatch i => exact absurd rfl h
  | _ => rfl

/-- A command of a running engine leaves it running, or is fault entry as a whole (R146). -/
theorem ExecCase.running_or_raise {s t : State} {i : Instr} (hx : ExecCase s t i) (hs : s.cause = .none) :
    t.cause = .none ∨ ∃ f, t = s.raise f := by
  cases hx with
  | updtNotReady b _ ht => exact .inr ⟨_, ht⟩
  | tverNotReady _ ht => exact .inr ⟨_, ht⟩
  | tverMismatch j v _ _ _ ht => exact .inr ⟨_, ht⟩
  | _ => subst t; exact .inl (by simpa using hs)

/-- A word accepted by a running engine leaves it running, or is fault entry as a whole (R146). -/
theorem acceptWord_running_or_raise {w : CmdWord} {s t : State} (hs : s.cause = .none)
    (h : acceptWord w s = .next t) : t.cause = .none ∨ ∃ f, t = s.raise f := by
  rcases acceptWord_execCase h with ⟨i, -, hx⟩ | ⟨-, ht⟩
  · exact hx.running_or_raise hs
  · exact .inr ⟨_, ht⟩

/-- FIDX is 0 after an accepted word that leads to a fault other than TableMismatch (R146). -/
theorem acceptWord_fidx_eq_zero {w : CmdWord} {s t : State} (hs : s.cause = .none) (h : acceptWord w s = .next t)
    (ht : t.cause ≠ .none) (hm : t.cause ≠ .tableMismatch) : t.fidx = 0#8 := by
  rcases acceptWord_running_or_raise hs h with hrun | ⟨f, rfl⟩
  · exact absurd hrun ht
  · exact EngineFault.info_eq_zero hm

/-- No command raises IllegalCmd (R142). -/
theorem ExecCase.cause_ne_illegal {s t : State} {i : Instr} (hx : ExecCase s t i) (hs : s.cause = .none) :
    t.cause ≠ .illegalCmd := by
  cases hx <;> subst t <;> simp [hs]

/-- Which command raises TableNotReady (R143). -/
theorem ExecCase.cause_notReady {s t : State} {i : Instr} (hx : ExecCase s t i) (hs : s.cause = .none) :
    t.cause = .tableNotReady ↔
      ((∃ b, i = .updt b) ∧ s.tstate ≠ .verified) ∨ (i = .tver ∧ s.tstate = .empty) := by
  cases hx with
  | updtNotReady b hv ht => subst ht; simp [hv]
  | updt b entry hv _ ht => subst ht; simp [hs, hv]
  | tverNotReady he ht => subst ht; simp [he]
  | tverMatch hl _ ht => subst ht; simp [hs, hl]
  | tverMismatch j v hl _ _ ht => subst ht; simp [hl]
  | tverAgain hv ht => subst ht; simp [hs, hv]
  | _ => subst t; simp [hs]

/-- Which command raises TableMismatch (R141). -/
theorem ExecCase.cause_mismatch {s t : State} {i : Instr} (hx : ExecCase s t i) (hs : s.cause = .none) :
    t.cause = .tableMismatch ↔ i = .tver ∧ s.tstate = .loaded ∧ ¬ s.table.Correct := by
  cases hx with
  | tverNotReady he ht => subst ht; simp [he]
  | tverMatch _ hc ht => subst ht; simp [hs, hc]
  | tverMismatch j v hl hw _ ht => subst ht; simp [hl, hw.not_correct]
  | tverAgain hv ht => subst ht; simp [hs, hv]
  | _ => subst t; simp [hs]

/-- Settles O31: a word that is no command raises IllegalCmd and nothing else; a command raises TableNotReady or
TableMismatch by its own rule. -/
theorem faultsAreRaisedExactlyWhenStated : Obligations.FaultsAreRaisedExactlyWhenStated := by
  intro s t w rest _ hc hh h
  have ha := (step_command hc hh).symm.trans h
  have hlowest : t.cause = .tableMismatch → s.table.LowestWrong t.fidx := fun ht =>
    (step_lowestWrong_of_mismatch h (by rw [hc]; nofun) ht).2
  have hzero : t.cause = .illegalCmd ∨ t.cause = .tableNotReady → t.fidx = 0#8 := fun ht => by
    have hne : t.cause ≠ .none ∧ t.cause ≠ .tableMismatch := by rcases ht with ht | ht <;> simp [ht]
    exact acceptWord_fidx_eq_zero (s := s.setHost rest) hc ha hne.1 hne.2
  rcases acceptWord_execCase ha with ⟨i, hd, hx⟩ | ⟨⟨e, hd⟩, rfl⟩
  · exact ⟨by simp [hd, hx.cause_ne_illegal hc], by simpa [hd] using hx.cause_notReady hc,
      by simpa [hd] using hx.cause_mismatch hc, hlowest, hzero⟩
  · exact ⟨by simp [hd], by simp [hd], by simp [hd], hlowest, hzero⟩

/-- Settles O32: only an accepted word can lead a running engine to a fault, and it does so by fault entry. -/
theorem faultEntryWritesCauseAndFidxOnly : Obligations.FaultEntryWritesCauseAndFidxOnly := by
  intro s t hc h ht
  rcases step_cases h with ⟨-, -, rfl⟩ | ⟨w, rest, -, hh, ha⟩ | ⟨rest, -, -, rfl⟩ | ⟨ws, rest, -, -, rfl⟩
  · exact absurd hc ht
  · refine ⟨w, rest, hh, ?_, acceptWord_fidx_eq_zero (s := s.setHost rest) hc ha ht⟩
    rcases acceptWord_running_or_raise (s := s.setHost rest) hc ha with hrun | ⟨f, rfl⟩
    · exact absurd hrun ht
    · rfl
  · exact absurd rfl ht
  · exact absurd rfl ht

/-- Settles O34: a host without a reset to come has words alone to offer, which a halted engine never accepts. -/
theorem haltedEngineStepsByResetOnly : Obligations.HaltedEngineStepsByResetOnly :=
  ⟨fun _ hc hh => step_halted_commands hc (eq_map_commandWords fun hm => hh _ hm rfl),
    fun _ _ _ => step_halted_reset⟩

/-- A reset and then BOOT, in an EMBEDDED build whose ROM is wrong, end in TableMismatch at its lowest wrong index,
whatever the state was (R112, R113, R148). -/
theorem State.RunsOver.reset_boot_of_wrong_rom {s : State} {rom : Vector Word 256} {i : Byte}
    (hb : s.build = .embedded rom) (hw : (Memory.ofRom rom).LowestWrong i) :
    s.RunsOver (.reset :: actionsOf boot) (s.takeReset.raise (.tableMismatch i)) := by
  have hreset : s.takeReset = State.resetOf (.embedded rom) s.host := by rw [State.takeReset_eq, hb]
  have htgen : exec .tgen s.takeReset = .next s.takeReset := exec_tgen_again (by rw [hreset]; nofun)
  have htver : exec .tver s.takeReset = .next (s.takeReset.raise (.tableMismatch i)) :=
    exec_tver_mismatch (by rw [hreset]; rfl) (by rw [hreset]; exact hw) (by simp [hb])
  exact (State.RunsOver.reset s).append (.cons rfl htgen (.cons rfl htver (.nil _)))

/-- Settles O36: reset loads TABLE_ROM from the build, TGEN leaves it, and TVER finds its lowest wrong index. -/
theorem defectiveRomFaultsAfterEveryReset : Obligations.DefectiveRomFaultsAfterEveryReset := by
  intro s rom i rest hb hi hlow hh
  have hw : (Memory.ofRom rom).LowestWrong i :=
    ⟨mt Memory.read_ofRom_eq_tableEntry.mp hi, fun j hj => Memory.read_ofRom_eq_tableEntry.mpr (hlow j hj)⟩
  have hrun := (State.RunsOver.reset_boot_of_wrong_rom hb hw).run rest
  have hhost : s.setHost (.reset :: actionsOf boot ++ rest) = s := congrArg s.setHost hh.symm
  rwa [hhost] at hrun

end Sys2Proof.Machine
end

section
/-! PROOFS. The engine that does nothing: halted at the ports (R147), and idle (R153). -/

namespace Sys2Proof.Machine

/-- A ready engine that accepts nothing stays ready and does nothing else (R153; log entry 20). -/
theorem PortState.edge_of_accepts_none {p : PortState} {i : PinsIn} (hrst : i.rst = false) (hp : p.phase = .ready)
    (h : p.accepts i = none) : p.edge i = .next (p.goOn .ready) := by
  simp [PortState.edge, hrst, PortState.runEdge, hp, h]

/-- A recovering engine changes its phase and nothing else (R173). -/
theorem PortState.edge_of_recovering {p : PortState} {i : PinsIn} {n : Nat} (hrst : i.rst = false)
    (hp : p.phase = .recovering n) : ∃ ph, p.edge i = .next (p.goOn ph) := by
  cases n with
  | zero => exact ⟨.ready, by simp [PortState.edge, hrst, PortState.runEdge, hp]⟩
  | succ n => exact ⟨.recovering n, by simp [PortState.edge, hrst, PortState.runEdge, hp]⟩

/-- A halted engine has no command in progress and no byte to deliver (R34, R35, R147). -/
theorem PortState.Inv.phase_of_halted {p : PortState} (h : p.Inv) (hc : p.core.cause ≠ .none) :
    p.phase = .ready ∨ ∃ n, p.phase = .recovering n := by
  have hhalt := (State.halted_eq_true p.core).mpr hc
  cases hp : p.phase with
  | ready => exact .inl rfl
  | recovering n => exact .inr ⟨n, rfl⟩
  | running w n => exact absurd (h.busyNotHalted (by rw [hp]; nofun)) hc
  | delivering bytes n =>
    have hwait := h.halted_none_waits hhalt
    rw [hp] at hwait
    exact absurd hwait (h.delivering_nonempty bytes n hp)

/-- Settles O33: a halted engine is ready or recovering, and cmd_ready is 0, so that an edge changes its phase alone. -/
theorem haltedEngineIsFrozenAtThePorts : Obligations.HaltedEngineIsFrozenAtThePorts := by
  intro p i hinv hc hrst
  have hready : p.cmdReady i.rst = false :=
    Bool.eq_false_iff.mpr fun hready => hc (PortState.cmdReady_eq_true.mp hready).2.1
  have haccepts := PortState.accepts_of_not_ready hready
  have hphase := hinv.phase_of_halted hc
  have hvalid : p.outValid i.rst = false := by
    refine Bool.eq_false_iff.mpr fun hvalid => ?_
    obtain ⟨-, b, bs, hp⟩ := PortState.outValid_eq_true.mp hvalid
    simp [hp] at hphase
  refine ⟨hready, hvalid, haccepts, ?_⟩
  rcases hphase with hp | ⟨n, hp⟩
  · exact ⟨_, PortState.edge_of_accepts_none hrst hp haccepts, rfl, rfl⟩
  · obtain ⟨ph, he⟩ := PortState.edge_of_recovering hrst hp
    exact ⟨_, he, rfl, rfl⟩

/-- Settles O58: with nothing offered a step keeps the state, and an edge at which nothing is accepted the phase. -/
theorem idleEngineKeepsItsState : Obligations.IdleEngineKeepsItsState := by
  refine ⟨fun s hc hh => ?_, fun p i hrst hp ha => ?_⟩
  · rw [step_running hc, runStep, hh]
  · exact ⟨_, PortState.edge_of_accepts_none hrst hp ha, rfl, rfl, rfl⟩

end Sys2Proof.Machine
end

section
/-! PROOFS. Reset in every state (R160), and how a run of a finite list of words ends (R176). -/

namespace Sys2Proof.Machine

/-- Settles O2: cmd_ready and out_valid are 0 in reset, so that no word is accepted and no byte taken; the edge is the
reset edge, whatever the phase, and the step is a reset, halted or not. -/
theorem resetHasPriorityInEveryState : Obligations.ResetHasPriorityInEveryState := by
  refine ⟨fun p i hrst => ?_, fun s rest hh => step_reset hh⟩
  have hready : p.cmdReady i.rst = false := by simp [PortState.cmdReady, hrst]
  have hvalid : p.outValid i.rst = false := by simp [PortState.outValid, hrst]
  have htakes : p.takes i = none := by simp [PortState.takes, hvalid]
  have hedge : p.edge i = .next p.resetEdge := by simp [PortState.edge, hrst]
  exact ⟨hready, hvalid, p.accepts_of_rst hrst, htakes, p.resetEdge, hedge, State.takeReset_eq p.core,
    recoverPhase_waiting _, recoverPhase_inProgress _, rfl⟩

/-- No run is longer than one that has come to a state without a step. -/
theorem runSteps_le_of_stuck {s t u : State} {f : Fault} {k m : Nat} (hk : runSteps k s = .next t)
    (hf : step t = .fault f) (hm : runSteps m s = .next u) : m ≤ k := by
  by_contra hlt
  obtain ⟨d, rfl⟩ : ∃ d, m = k + (d + 1) := ⟨m - k - 1, by omega⟩
  rw [runSteps_add _ _ hk, runSteps_succ_fault d hf] at hm
  cases hm

/-- A run that halted did not complete: it would have to halt after its last word, and with CAUSE = 0. -/
theorem HaltedAfter.not_completed {k : Nat} {ws : List CmdWord} {s t u : State} (h : HaltedAfter k ws s t) :
    ¬ Completed ws s u := by
  rintro ⟨hu, hrun, -⟩
  obtain ⟨hle, ht, hc, -, hstuck⟩ := h
  obtain rfl : k = ws.length := le_antisymm hle (runSteps_le_of_stuck ht hstuck hu)
  cases ht.symm.trans hu
  exact hc hrun

/-- A run halts in one place. -/
theorem HaltedAfter.unique {k k' : Nat} {ws : List CmdWord} {s t t' : State} (h : HaltedAfter k ws s t)
    (h' : HaltedAfter k' ws s t') : k' = k ∧ t' = t := by
  obtain ⟨-, ht, -, -, hstuck⟩ := h
  obtain ⟨-, ht', -, -, hstuck'⟩ := h'
  obtain rfl : k' = k := le_antisymm (runSteps_le_of_stuck ht hstuck ht') (runSteps_le_of_stuck ht' hstuck' ht)
  cases ht.symm.trans ht'
  exact ⟨rfl, rfl⟩

/-- A running engine with the invariant accepts words up to the first that raises a fault, or to the last of all. -/
theorem State.Inv.runsOver_words {s : State} (h : s.Inv) (hc : s.cause = .none) (ws : List CmdWord) :
    ∃ pre post t, ws = pre ++ post ∧ s.RunsOver (pre.map .command) t ∧ (t.cause = .none → post = []) := by
  induction ws generalizing s with
  | nil => exact ⟨[], [], s, rfl, .nil s, fun _ => rfl⟩
  | cons w ws ih =>
    obtain ⟨t, ht⟩ := h.table.acceptWord_completes w
    have hword := State.RunsOver.command hc ht
    by_cases hct : t.cause = .none
    · obtain ⟨pre, post, u, rfl, hu, hpost⟩ := ih (h.acceptWord hc ht) hct
      exact ⟨w :: pre, post, u, rfl, hword.append hu, hpost⟩
    · exact ⟨[w], ws, t, rfl, hword, fun hrun => absurd hrun hct⟩

/-- The run of any words from a running engine with the invariant completes or halts (R176). -/
theorem State.Inv.completed_or_haltedAfter {s : State} (h : s.Inv) (hc : s.cause = .none) (ws : List CmdWord) :
    (∃ t, Completed ws s t) ∨ ∃ k t, HaltedAfter k ws s t := by
  obtain ⟨pre, post, t, rfl, ht, hpost⟩ := h.runsOver_words hc ws
  have hrun : runSteps pre.length (s.withWords (pre ++ post)) = .next (t.setHost (post.map .command)) := by
    simpa [State.withWords] using ht.run (post.map .command)
  by_cases hct : t.cause = .none
  · obtain rfl := hpost hct
    rw [List.append_nil] at hrun ⊢
    exact .inl ⟨_, hrun, hct, rfl⟩
  · exact .inr ⟨pre.length, _, by simp, hrun, hct, by simp, step_halted_commands (s := t.setHost _) hct rfl⟩

/-- Settles O51: the run from reset completes or halts, by induction on the words; a run that halted has no step left,
so it did not complete and halts nowhere else. -/
theorem everyRunCompletesOrHalts : Obligations.EveryRunCompletesOrHalts := by
  intro build ws
  rcases (State.Inv.resetOf build []).completed_or_haltedAfter rfl ws with ⟨t, ht⟩ | ⟨k, t, ht⟩
  · exact .inl ⟨⟨t, ht⟩, fun _ _ hhalt => hhalt.not_completed ht⟩
  · exact .inr ⟨fun _ => ht.not_completed, k, t, ht, fun _ _ => ht.unique⟩

end Sys2Proof.Machine
end

section
/-! PROOFS. Every command ends after finitely many edges (R173): each phase counts down to the next one, and the last is
`ready`. -/

namespace Sys2Proof.Machine

/-- The engine comes to be ready at edges without reset at which its output is taken, whatever else the host does. -/
inductive PortState.Settles : PortState → Prop where
  | ready {p : PortState} : p.phase = .ready → Settles p
  | edge {p q : PortState} : (∀ i : PinsIn, i.rst = false → i.outReady = true → p.edge i = .next q) → Settles q →
      Settles p

/-- A number of edges within which it is ready. -/
theorem PortState.Settles.exists_bound {p : PortState} (h : p.Settles) :
    ∃ n : Nat, ∀ ins : List PinsIn, ins.length = n → (∀ i ∈ ins, i.rst = false ∧ i.outReady = true) →
      ∃ k, k ≤ n ∧ ∃ p', PortState.run (ins.take k) p = .next p' ∧ p'.phase = .ready := by
  induction h with
  | @ready p hp => exact ⟨0, fun ins _ _ => ⟨0, le_rfl, p, rfl, hp⟩⟩
  | @edge p q hedge _ ih =>
    obtain ⟨n, hn⟩ := ih
    refine ⟨n + 1, fun ins hlen hins => ?_⟩
    obtain ⟨i, rest, rfl⟩ := List.exists_cons_of_length_eq_add_one hlen
    obtain ⟨⟨hrst, hready⟩, hrest⟩ := List.forall_mem_cons.mp hins
    obtain ⟨k, hk, p', hrun, hp'⟩ := hn rest (by simpa using hlen) hrest
    refine ⟨k + 1, Nat.succ_le_succ hk, p', ?_, hp'⟩
    rw [List.take_succ_cons, PortState.run_cons _ (hedge i hrst hready)]
    exact hrun

theorem PortState.edge_of_not_rst {p : PortState} {i : PinsIn} (hrst : i.rst = false) : p.edge i = p.runEdge i := by
  simp [PortState.edge, hrst]

/-- A phase that counts down, one edge at a time, settles if it does at the end of the count. -/
theorem PortState.Settles.countdown {p : PortState} {n : Nat} (ph : Nat → Phase)
    (hstep : ∀ (q : PortState) (m : Nat) (i : PinsIn), q.phase = ph (m + 1) → q.runEdge i = .next (q.goOn (ph m)))
    (hzero : ∀ q : PortState, q.core = p.core → q.phase = ph 0 → q.Settles) (hp : p.phase = ph n) : p.Settles := by
  induction n generalizing p with
  | zero => exact hzero p rfl hp
  | succ n ih =>
    refine .edge (q := p.goOn (ph n)) (fun i hrst _ => ?_) (ih hzero rfl)
    rw [PortState.edge_of_not_rst hrst, hstep p n i hp]

theorem PortState.Settles.of_recovering {p : PortState} {n : Nat} (hp : p.phase = .recovering n) : p.Settles := by
  refine .countdown Phase.recovering (fun q m i hq => by simp [PortState.runEdge, hq]) (fun q _ hq => ?_) hp
  exact .edge (q := q.goOn .ready) (fun i hrst _ => by simp [PortState.edge_of_not_rst hrst, PortState.runEdge, hq])
    (.ready rfl)

theorem PortState.Settles.of_recoverPhase {p : PortState} {e : Nat} (hp : p.phase = recoverPhase e) : p.Settles := by
  rcases recoverPhase_cases e with h | ⟨n, h⟩
  · exact .ready (hp.trans h)
  · exact .of_recovering (hp.trans h)

/-- The first byte that waits is taken once it is on offer, and then the others wait. -/
theorem PortState.Settles.of_delivering {p : PortState} {b : Byte} {bs : List Byte} {n : Nat}
    (hrest : ∀ (q : PortState) (e : Nat), q.phase = phaseAfter e bs → q.Settles)
    (hp : p.phase = .delivering (b :: bs) n) : p.Settles := by
  refine .countdown (Phase.delivering (b :: bs)) (fun q m i hq => by simp [PortState.runEdge, hq]) (fun q _ hq => ?_) hp
  refine .edge (q := q.deliver b bs true) (fun i hrst hready => ?_) (hrest _ q.edges rfl)
  rw [PortState.edge_of_offers hrst hq, hready]

/-- Bytes that wait are taken one after the other, and then the engine recovers (R35). -/
theorem PortState.Settles.of_phaseAfter {p : PortState} {e : Nat} {bs : List Byte} (hp : p.phase = phaseAfter e bs) :
    p.Settles := by
  induction bs generalizing p e with
  | nil => exact .of_recoverPhase hp
  | cons b bs ih => exact .of_delivering (fun _ _ => ih) hp

/-- The edge at which the word in progress takes effect (R34). -/
theorem PortState.edge_of_effect {p : PortState} {i : PinsIn} {w : CmdWord} {t : State} (hrst : i.rst = false)
    (hp : p.phase = .running w 0) (ht : acceptWord w p.core = .next t) :
    p.edge i = .next { p with core := t, phase := phaseAfter p.edges (t.out.drop p.core.out.length),
                              edges := p.edges + 1 } := by
  simp [PortState.edge_of_not_rst hrst, PortState.runEdge, hp, PortState.finish, ht]

/-- A command that runs takes effect, because under the table invariant every accepted word completes. -/
theorem PortState.Settles.of_running {p : PortState} {w : CmdWord} {n : Nat} (h : p.core.TableInv)
    (hp : p.phase = .running w n) : p.Settles := by
  refine .countdown (Phase.running w) (fun q m i hq => by simp [PortState.runEdge, hq]) (fun q hcore hq => ?_) hp
  obtain ⟨t, ht⟩ := h.acceptWord_completes w
  rw [← hcore] at ht
  exact .edge (fun i hrst _ => PortState.edge_of_effect hrst hq ht) (.of_phaseAfter (e := q.edges) rfl)

/-- Under the invariant of the ports the engine settles from every phase. -/
theorem PortState.Inv.settles {p : PortState} (h : p.Inv) : p.Settles := by
  cases hp : p.phase with
  | ready => exact .ready hp
  | running w n => exact .of_running h.core.table hp
  | delivering bytes n =>
    cases bytes with
    | nil => exact absurd rfl (h.delivering_nonempty [] n hp)
    | cons b bs => exact .of_delivering (fun _ _ => .of_phaseAfter) hp
  | recovering n => exact .of_recovering hp

/-- Settles O57: the engine settles into the phase `ready`, in which cmd_ready is 1 unless it is halted. -/
theorem everyCommandEndsAfterFinitelyManyEdges : Obligations.EveryCommandEndsAfterFinitelyManyEdges := by
  intro p hinv
  obtain ⟨n, hn⟩ := hinv.settles.exists_bound
  refine ⟨n, fun ins hlen hins => ?_⟩
  obtain ⟨k, hk, p', hrun, hp'⟩ := hn ins hlen hins
  refine ⟨k, hk, p', hrun, hp', ?_⟩
  by_cases hc : p'.core.cause = .none
  · exact .inr (PortState.cmdReady_eq_true.mpr ⟨rfl, hc, hp'⟩)
  · exact .inl ((State.halted_eq_true _).mpr hc)

end Sys2Proof.Machine
end
